-- ==== Sys2Proof/Word.lean ====
section
/-! DEFINITION. The widths of rule R10: a word is 32 bits, a byte 8; and the container of an `AW`-bit address or byte count. -/

namespace Sys2Proof

/-- A word (lane) of the engine, 32 bits, unsigned (R5, R10). -/
abbrev Word := BitVec 32

/-- A byte of the data space (R10). -/
abbrev Byte := BitVec 8

/-- The container of an `AW`-bit register, `AW ≤ 64` (R8). An `AW`-bit value is held with its bits at and above `AW` zero
(log entry 7). -/
abbrev Addr := BitVec 64

/-- The register file `KEY` (R19). -/
abbrev Key := Vector Word 8

/-- The register file `NONCE` (R20). -/
abbrev Nonce := Vector Word 4

/-- A 16-word register file, `BASE` or `BLK` (R22, R24). -/
abbrev Block := Vector Word 16

end Sys2Proof
end

