-- ==== Sys2Proof/Syntax.lean ====
section
/-! DEFINITION. The twelve commands of the opcode map (R60), one constructor per row of spec/opcode_table.json. -/

namespace Sys2Proof

/-- A command of the engine (R58, R60). No command carries an operand: its operands are whole registers (R61). -/
inductive Instr where
  /-- `NOP`, R104. -/
  | nop
  /-- `SEED`, R76: step 1 of the driver. -/
  | seed
  /-- `BSIZE`, R78: step 2a. -/
  | bsize
  /-- `COPY`, R79: step 2b. -/
  | copy
  /-- `CTRINC`, R80: step 2c. -/
  | ctrinc
  /-- `MIX`, R73: step 2d, the round function. -/
  | mix
  /-- `FOLD`, R82: step 2e. -/
  | fold
  /-- `XORB`, R101: step 2f. -/
  | xorb
  /-- `ADV`, R83: step 2g. -/
  | adv
  /-- `BLOCK`, R84: one iteration of the loop. -/
  | block
  /-- `APPLY`, R85: the whole driver. -/
  | apply
  /-- `XORM`, R102: the two-span XOR. -/
  | xorm
  deriving DecidableEq, Repr

end Sys2Proof
end

