-- ==== Sys2Proof/Decode.lean ====
section
/-! DEFINITION. The command word (R58): the decoder, total on 32-bit words and rejecting by name (R62), and the encoder (R60). -/

namespace Sys2Proof

/-- Why a word is no command (R62). Both kinds raise `ILLEGAL` (R59). -/
inductive Illegal where
  /-- A bit of `W[31:4]` is not zero. -/
  | malformed
  /-- `W[31:4]` is zero and the opcode is 0xC, 0xD, 0xE or 0xF. -/
  | reserved
  deriving DecidableEq, Repr

/-- The field `op`, bits 3:0 of the command word (R58). -/
def opField (w : Word) : BitVec 4 := w.extractLsb' 0 4

/-- The field `zero`, bits 31:4 of the command word (R58). -/
def zeroField (w : Word) : BitVec 28 := w.extractLsb' 4 28

/-- The command of an opcode; none for the reserved opcodes (R60). -/
def ofOpcode (op : BitVec 4) : Option Instr :=
  match op.toNat with
  | 0x0 => some .nop
  | 0x1 => some .seed
  | 0x2 => some .bsize
  | 0x3 => some .copy
  | 0x4 => some .ctrinc
  | 0x5 => some .mix
  | 0x6 => some .fold
  | 0x7 => some .xorb
  | 0x8 => some .adv
  | 0x9 => some .block
  | 0xA => some .apply
  | 0xB => some .xorm
  | _ => none

/-- The decoder of the command word (R59 step 3, R62). -/
def decode (w : Word) : Except Illegal Instr :=
  if zeroField w = 0 then
    match ofOpcode (opField w) with
    | some i => .ok i
    | none => .error .reserved
  else .error .malformed

/-- The opcode of a command (R60). -/
def opcode : Instr → BitVec 4
  | .nop => 0x0
  | .seed => 0x1
  | .bsize => 0x2
  | .copy => 0x3
  | .ctrinc => 0x4
  | .mix => 0x5
  | .fold => 0x6
  | .xorb => 0x7
  | .adv => 0x8
  | .block => 0x9
  | .apply => 0xA
  | .xorm => 0xB

/-- The command word of a command: the opcode below 28 zero bits (R58, R60). -/
def encode (i : Instr) : Word := (0 : BitVec 28) ++ opcode i

/-- The command the decoder reads from a table row's bits: a command word is one 32-bit register write, so the word is the
number itself (R58). -/
def decodeTableWord (nbits w : Nat) : Option Instr :=
  if nbits ≤ 32 ∧ w < 2 ^ nbits then
    match decode (BitVec.ofNat 32 w) with
    | .ok i => some i
    | .error _ => none
  else none

end Sys2Proof
end

