-- ==== Sys2Proof/Config.lean ====
section
/-! DEFINITION. The configuration of one build (R18): the open parameters `CONST` (R6), `VW` (R7), `AW` (R8) and the platform's
admission of data-space accesses (R39). All of it is plain data, so that `State` can carry it (log entries 1 and 3). -/

namespace Sys2Proof

/-- The widest XOR operation of the datapath, `VW` (R7). -/
inductive VecWidth where
  | w64
  | w32
  | w16
  | w8
  deriving DecidableEq, Repr

/-- The kind of a data-space access (R39). -/
inductive AccessKind where
  | read
  | write
  deriving DecidableEq, Repr

/-- A part of the data space in which the platform admits accesses: an access is admitted by the window if it lies wholly inside
`base .. base + size - 1`, has one of the `widths`, and is of an allowed kind (R39, log entry 3). -/
structure Window where
  base : Nat
  size : Nat
  widths : List Nat
  mayRead : Bool
  mayWrite : Bool
  deriving DecidableEq, Repr

/-- What one build fixes (R18). A build that names neither `VW` nor `AW` has the spec's defaults, 64 and 64. -/
structure Config where
  /-- `CONST[0..3]`, R6. -/
  const : Vector Word 4
  /-- `VW`, "an OPEN parameter with default 64" (R7). -/
  vw : VecWidth := .w64
  /-- `AW - 7`: every value of this field is a legal `AW`, 7 to 64; the default is `AW = 64` (R8). -/
  awOver : Fin 58 := 57
  /-- The windows in which the platform admits accesses, R39. -/
  windows : List Window
  deriving DecidableEq, Repr

/-- `CONST` of the build at `State.reset`: FREE, an opaque constant of which nothing can be proved, since the spec gives no value
and no default (R6; log entry 1). -/
opaque Config.buildConst : Vector Word 4

/-- What the platform of the build at `State.reset` admits: FREE, an opaque constant, since the spec leaves it to the platform
(R39, U6; log entry 1). -/
opaque Config.buildWindows : List Window

/-- The configuration the machine has at `State.reset`: the default `VW` and `AW` (R7, R8), and a free `CONST` and admission. -/
def Config.build : Config where
  const := Config.buildConst
  windows := Config.buildWindows

end Sys2Proof
end

