-- ==== Sys2Proof/Machine/RegMap.lean ====
section
/-! DEFINITION. The register map (R55): the names of the 64 slots and their byte offsets; and the host steps that reach them
(R15, R63, R124). -/

namespace Sys2Proof.Machine

/-- A slot of the register interface (R55). -/
inductive Reg where
  | cmd
  | status
  | faddrLo
  | faddrHi
  | daddrLo
  | daddrHi
  | dlenLo
  | dlenHi
  | saddrLo
  | saddrHi
  | offLo
  | offHi
  | remLo
  | remHi
  | bsz
  | valid
  | key (i : Fin 8)
  | nonce (i : Fin 4)
  | base (i : Fin 16)
  | blk (i : Fin 16)
  /-- The four reserved slots 0x03C, 0x074, 0x078, 0x07C, in this order. -/
  | reserved (i : Fin 4)
  deriving DecidableEq, Repr

/-- The number of the slot, its byte offset divided by 4 (R55). -/
def Reg.slot : Reg → Nat
  | .cmd => 0
  | .status => 1
  | .faddrLo => 2
  | .faddrHi => 3
  | .daddrLo => 4
  | .daddrHi => 5
  | .dlenLo => 6
  | .dlenHi => 7
  | .saddrLo => 8
  | .saddrHi => 9
  | .offLo => 10
  | .offHi => 11
  | .remLo => 12
  | .remHi => 13
  | .bsz => 14
  | .key i => 16 + i
  | .nonce i => 24 + i
  | .valid => 28
  | .base i => 32 + i
  | .blk i => 48 + i
  | .reserved i => if i = 0 then 15 else 28 + i

/-- The byte offset of a register (R55). -/
def Reg.offset (r : Reg) : Nat := 4 * r.slot

/-- The register in slot `k`, for the 64 slots of the map (R55). -/
def Reg.ofSlot (k : Nat) : Option Reg :=
  if 48 ≤ k then
    if h : k - 48 < 16 then some (.blk ⟨k - 48, h⟩) else none
  else if 32 ≤ k then
    if h : k - 32 < 16 then some (.base ⟨k - 32, h⟩) else none
  else if 29 ≤ k then
    if h : k - 28 < 4 then some (.reserved ⟨k - 28, h⟩) else none
  else if 28 ≤ k then some .valid
  else if 24 ≤ k then
    if h : k - 24 < 4 then some (.nonce ⟨k - 24, h⟩) else none
  else if 16 ≤ k then
    if h : k - 16 < 8 then some (.key ⟨k - 16, h⟩) else none
  else
    match k with
    | 0 => some .cmd
    | 1 => some .status
    | 2 => some .faddrLo
    | 3 => some .faddrHi
    | 4 => some .daddrLo
    | 5 => some .daddrHi
    | 6 => some .dlenLo
    | 7 => some .dlenHi
    | 8 => some .saddrLo
    | 9 => some .saddrHi
    | 10 => some .offLo
    | 11 => some .offHi
    | 12 => some .remLo
    | 13 => some .remHi
    | 14 => some .bsz
    | _ => some (.reserved 0)

/-- The register a 32-bit access at byte offset `o` reaches; none unless `o` is a multiple of 4 inside 0x000 to 0x0FC
(R38, R56). -/
def Reg.ofOffset (o : Nat) : Option Reg :=
  if o % 4 = 0 then Reg.ofSlot (o / 4) else none

/-- One step of the host: a bus access to the register interface (R15, R63), or the assertion of reset (R124). The size in bytes
is kept so that an access the engine does not have (R56) can be written down and refused. -/
inductive HostStep where
  /-- A bus write of `value` at byte `offset`, `size` bytes wide. -/
  | write (offset size : Nat) (value : Word)
  /-- A bus read at byte `offset`, `size` bytes wide. -/
  | read (offset size : Nat)
  /-- The platform asserts the reset input. -/
  | reset
  deriving DecidableEq, Repr

/-- The register a bus access reaches: it must be 32 bits wide, at the offset of a slot (R56). -/
def busReg (offset size : Nat) : Option Reg :=
  if size = 4 then Reg.ofOffset offset else none

end Sys2Proof.Machine
end

