-- ==== Sys2Proof/Machine/State.lean ====
section
/-! DEFINITION. The state of one engine (R17), with the data space it reaches (R37), the host's pending steps (R63) and the
configuration of the build (R18); and the state after reset (R36). Plain data throughout. -/

namespace Sys2Proof.Machine

/-- The five causes of a fault (R109, U16). -/
inductive Cause where
  /-- Code 1: a command word that is no command. -/
  | illegal
  /-- Code 2: a validity condition of rule R110 fails. -/
  | notReady
  /-- Code 3: the memory does not admitted an access. -/
  | bus
  /-- Code 4: the two spans of `XORM` overlap. -/
  | overlap
  /-- Code 5: a span of non-zero size runs past the address space. -/
  | range
  deriving DecidableEq, Repr

/-- A data-space access the engine performed: its kind, start address and width in bytes (R13, R49). -/
structure Access where
  kind : AccessKind
  addr : Nat
  width : Nat
  deriving DecidableEq, Repr

/-- The data space (R37): the bytes that are not what an unlisted address reads as, by strictly rising address. -/
abbrev Memory := List Host.Cell

/-- The state. The fields from `key` to `faddr` are the tuple of rule R17, the data space `mem` is that of rule R37, and `cfg` is
the configuration of rule R18, which no step changes. `host`, `reads` and `accesses` are the model's own. -/
structure State where
  /-- `KEY[0..7]`, R19. -/
  key : Key
  /-- `NONCE[0..3]`, R20. -/
  nonce : Nonce
  /-- `BASE[0..15]`, R22; words 0 to 3 are the position counter, R23. -/
  base : Block
  /-- `BLK[0..15]`, R24. -/
  blk : Block
  /-- `DADDR`, R27. -/
  daddr : Addr
  /-- `SADDR`, R27. -/
  saddr : Addr
  /-- `DLEN`, R27. -/
  dlen : Addr
  /-- `OFF`, R28. -/
  off : Addr
  /-- `REM`, R28. -/
  rem : Addr
  /-- `BSZ`, 0 to 64, R17, R28. -/
  bsz : Fin 65
  /-- `KV`, R33. -/
  kv : BitVec 8
  /-- `NV`, R33. -/
  nv : BitVec 4
  /-- `SEEDED`, R33. -/
  seeded : Bool
  /-- `BLKV`, R33. -/
  blkv : BitVec 16
  /-- `STATUS.BUSY`, R31. -/
  busy : Bool
  /-- `STATUS.DONE`, R31. -/
  done : Bool
  /-- `STATUS.FAULT`, R31. -/
  fault : Bool
  /-- `STATUS.CAUSE`, R31; none is the code 0, R109. -/
  cause : Option Cause
  /-- `FADDR`, R32. -/
  faddr : Addr
  /-- The data space, R37. -/
  mem : Memory
  /-- The configuration of the build, R18 (log entry 1). -/
  cfg : Config
  /-- The host steps still to be performed, the next one first, R63 (log entry 4). -/
  host : List HostStep
  /-- The values register reads have returned to the host, the oldest first, R106 (log entry 6). -/
  reads : List Word
  /-- The data-space accesses performed, the oldest first, R49 (log entry 6). -/
  accesses : List Access
  deriving DecidableEq, Repr

/-- Reasons for which the machine stops with a fault. There is none: every fault of the engine is the sticky state of rule R113,
a next state in which `STATUS.FAULT` is 1 (R115; log entry 9). -/
inductive Fault where
  deriving DecidableEq, Repr

/-- Reasons for which the machine refuses a step. -/
inductive Refusal where
  /-- Raised by an arm of `exec` for a command that has no meaning yet; safe. No arm is left that raises it. -/
  | notModelled (mnemonic : String)
  /-- Raised by a host access that is not 32 bits wide at the offset of a register slot: "a model refuses it (it has no step)"
  (R56, U13); safe. -/
  | badBusAccess (offset size : Nat)
  /-- Raised by a host read of BASE, BLK, OFF, REM, BSZ or VALID while `BUSY` is 1, whose value is unspecified and which the
  atomic model refuses (R128, U9); safe. -/
  | readWhileBusy (r : Reg)
  deriving DecidableEq, Repr

/-- The state after reset (R36): every register and validity bit 0. The configuration is the default build's, with `CONST`
and the admission unknown (R7, R8; log entry 1); the
data space holds nothing written (log entry 2); the host has no step pending (log entry 4). -/
def State.reset : State where
  key := Vector.replicate 8 0
  nonce := Vector.replicate 4 0
  base := Vector.replicate 16 0
  blk := Vector.replicate 16 0
  daddr := 0
  saddr := 0
  dlen := 0
  off := 0
  rem := 0
  bsz := 0
  kv := 0
  nv := 0
  seeded := false
  blkv := 0
  busy := false
  done := false
  fault := false
  cause := none
  faddr := 0
  mem := []
  cfg := Config.build
  host := []
  reads := []
  accesses := []

end Sys2Proof.Machine
end

