-- ==== Sys2Proof/Machine/Flags.lean ====
section
/-! DEFINITION. The status and validity words (R31, R33) and the cause codes (R109). The engine has no arithmetic flag (R34). -/

namespace Sys2Proof.Machine

/-- The code of a cause in `STATUS.CAUSE` (R109). -/
def causeCode : Cause → BitVec 4
  | .illegal => 1
  | .notReady => 2
  | .bus => 3
  | .overlap => 4
  | .range => 5

/-- `STATUS.CAUSE`: 0 when no fault has been taken (R31). -/
def causeField : Option Cause → BitVec 4
  | none => 0
  | some c => causeCode c

/-- The register `STATUS` (R31): bit 0 BUSY, bit 1 DONE, bit 2 FAULT, bits 7:4 CAUSE, every other bit 0. -/
def statusWord (s : State) : Word :=
  (0 : BitVec 24) ++ causeField s.cause ++ (0 : BitVec 1) ++ BitVec.ofBool s.fault ++ BitVec.ofBool s.done ++ BitVec.ofBool s.busy

/-- The register `VALID` (R33): bits 7:0 KV, 11:8 NV, 12 SEEDED, 31:16 BLKV, bits 15:13 zero. -/
def validWord (s : State) : Word :=
  s.blkv ++ (0 : BitVec 3) ++ BitVec.ofBool s.seeded ++ s.nv ++ s.kv

/-- Every key and nonce word has been written: what SEED needs (R110). -/
def keyed (s : State) : Bool := s.kv == 0xFF && s.nv == 0xF

/-- Every word of BLK has been written: what MIX, FOLD and XORB need (R110). -/
def blkReady (s : State) : Bool := s.blkv == 0xFFFF

/-- Bit `i` of a validity mask set (R21, R33). -/
def setBit {n : Nat} (m : BitVec n) (i : Nat) : BitVec n := m ||| BitVec.twoPow n i

end Sys2Proof.Machine
end

