-- ==== Sys2Proof/Machine/Operands.lean ====
section
/-! DEFINITION. Operands (R61): the parameters as numbers, the LO and HI halves of an `AW`-bit register (R27, R55), the chunk and
lane view of a register file (R25, R66), and the byte sequence of the block state (R42). -/

namespace Sys2Proof.Machine

/-- `VW` in bytes (R7). -/
def vwBytes : VecWidth → Nat
  | .w64 => 64
  | .w32 => 32
  | .w16 => 16
  | .w8 => 8

/-- `AW`, from 7 to 64 (R8). -/
def addrWidth (c : Config) : Nat := 7 + c.awOver.val

/-- `2^AW`, the size of the data space in bytes (R37). -/
def spaceSize (c : Config) : Nat := 2 ^ addrWidth c

/-- The low `AW` bits of a number (R27, R32, R113). -/
def narrow (c : Config) (n : Nat) : Addr := BitVec.ofNat 64 (n % spaceSize c)

/-- Bits 31:0 of a register, its LO half (R27). -/
def loHalf (x : Addr) : Word := x.extractLsb' 0 32

/-- Bits 63:32 of a register, its HI half (R27). -/
def hiHalf (x : Addr) : Word := x.extractLsb' 32 32

/-- The register with its LO half replaced; bits at and above `AW` are dropped (R27, R55, R105). -/
def withLo (c : Config) (x : Addr) (v : Word) : Addr := narrow c (hiHalf x ++ v).toNat

/-- The register with its HI half replaced; bits at and above `AW` are dropped (R27, R55, R105). -/
def withHi (c : Config) (x : Addr) (v : Word) : Addr := narrow c (v ++ loHalf x).toNat

/-- The word index of lane `l` of chunk `j`, `4j + l` (R25, R66). -/
def laneIdx (j l : Fin 4) : Fin 16 := ⟨4 * j.val + l.val, by omega⟩

/-- `BLKBYTE[k]`, bits `8(k mod 4) + 7 : 8(k mod 4)` of word `k div 4`: little-endian (R42). -/
def blkByte (b : Block) (k : Fin 64) : Byte := (b[k.val / 4]'(by omega)).extractLsb' (8 * (k.val % 4)) 8

/-- `BLKBYTE[o .. o+n-1]` (R42, R101). The driver's chunks lie in the 64 bytes, since `BSZ ≤ 64` (R29). -/
def blkBytes (b : Block) (o n : Nat) : List Byte := (List.range n).map fun i => blkByte b (Fin.ofNat 64 (o + i))

end Sys2Proof.Machine
end

