-- ==== Sys2Proof/Machine/Ops.lean ====
section
/-! DEFINITION. The operations the commands share: the arithmetic of rule R11, memory (R13, R37, R39), fault entry (R14, R113), the
framing of a command (R59), and the XOR of one chunk (R96). -/

namespace Sys2Proof.Machine

/-- `add32`, addition modulo 2^32 (R11). -/
def add32 (a b : Word) : Word := a + b

/-- `ror32`, rotate right by `n`, `1 ≤ n ≤ 31` (R11). -/
def ror32 (x : Word) (n : Nat) : Word := (x >>> n) ||| (x <<< (32 - n))

/-! Memory. -/

/-- What a byte that nothing has written reads as: 0. The spec gives no power-on contents of the data space (log entry 2). -/
def unlisted : Byte := 0

/-- The byte at an address. -/
def Memory.read : Memory → Nat → Byte
  | [], _ => unlisted
  | (a, b) :: m, x => if a = x then b else Memory.read m x

/-- The memory with no entry for an address. -/
def Memory.erase (m : Memory) (x : Nat) : Memory := m.filter fun c => c.1 != x

/-- The memory with an entry put in before the first higher address. -/
def Memory.insert : Memory → Nat → Byte → Memory
  | [], x, v => [(x, v)]
  | (a, b) :: m, x, v => if x < a then (x, v) :: (a, b) :: m else (a, b) :: Memory.insert m x v

/-- The memory with one byte replaced. Writing what an unlisted address reads as leaves no entry. -/
def Memory.write (m : Memory) (x : Nat) (v : Byte) : Memory :=
  if v = unlisted then Memory.erase m x else Memory.insert (Memory.erase m x) x v

/-- The bytes at `a .. a+n-1` (R13). -/
def Memory.readBytes (m : Memory) (a n : Nat) : List Byte := (List.range n).map fun k => Memory.read m (a + k)

/-- The memory with the bytes from `a` on replaced (R13). -/
def Memory.writeBytes (m : Memory) (a : Nat) : List Byte → Memory
  | [] => m
  | b :: bs => Memory.writeBytes (Memory.write m a b) (a + 1) bs

/-- The canonical form from address `lo` on: addresses strictly rise and no entry holds what an unlisted address reads as. -/
def Memory.wfFrom (lo : Nat) : Memory → Bool
  | [] => true
  | (a, b) :: m => decide (lo ≤ a) && b != unlisted && Memory.wfFrom (a + 1) m

/-- The canonical form. -/
def Memory.wf (m : Memory) : Bool := Memory.wfFrom 0 m

/-- Every listed address is below `n`. -/
def Memory.below (n : Nat) (m : Memory) : Bool := m.all fun c => decide (c.1 < n)

/-! Commands and faults. -/

/-- How a command, or a step of a composite command, goes on: complete so far, or ended by a fault already taken (R14, R87). -/
inductive Flow where
  | ok (s : State)
  | raised (s : State)

/-- Perform `g` if nothing has been raised: "nothing after it is performed" (R14, R87). -/
def Flow.andThen (f : Flow) (g : State → Flow) : Flow :=
  match f with
  | .ok s => g s
  | .raised s => .raised s

/-- Fault entry (R113): FAULT, CAUSE and FADDR are written and BUSY cleared; DONE stays as the start of the command left it. -/
def enterFault (s : State) (c : Cause) (addr : Nat) : State :=
  { s with fault := true, cause := some c, faddr := narrow s.cfg addr, busy := false }

/-- `raise Fault(cause, addr)` (R14). -/
def raise (s : State) (c : Cause) (addr : Nat) : Flow := .raised (enterFault s c addr)

/-- The start of a command (R59 step 2). -/
def startCommand (s : State) : State := { s with done := false, busy := true }

/-- The completion of a command (R59 step 5). -/
def completeCommand (s : State) : State := { s with busy := false, done := true }

/-- A register write is ignored when this holds (R59 step 1, R105, R115). -/
def gated (s : State) : Bool := s.fault || s.busy

/-- The state a command leaves. -/
def settle : Flow → State
  | .ok s => completeCommand s
  | .raised s => s

/-- A command with the given body, framed as rule R59 says: ignored when gated, else started, performed, and completed or
faulted. -/
def command (body : State → Flow) (s : State) : State :=
  if gated s then s else settle (body (startCommand s))

/-! Updates of the engine's registers, by name. -/

/-- `BLK` replaced. -/
def withBlk (s : State) (b : Block) : State := { s with blk := b }

/-- `BLKV` replaced. -/
def withBlkv (s : State) (v : BitVec 16) : State := { s with blkv := v }

/-- `BASE` replaced. -/
def withBase (s : State) (b : Block) : State := { s with base := b }

/-- `SEEDED` set. -/
def withSeeded (s : State) : State := { s with seeded := true }

/-- The sequencer `OFF`, `REM`, `BSZ` replaced (R28). -/
def withSequencer (s : State) (off rem : Addr) (bsz : Fin 65) : State := { s with off := off, rem := rem, bsz := bsz }

/-! Accesses to the data space. -/

/-- A window admits an access that lies wholly inside it, has one of its widths and is of an allowed kind (R39). -/
def Window.admits (w : Window) (addr n : Nat) (k : AccessKind) : Bool :=
  decide (w.base ≤ addr) && decide (addr + n ≤ w.base + w.size) && w.widths.contains n &&
    match k with
    | .read => w.mayRead
    | .write => w.mayWrite

/-- The predicate of rule R39 on address, width and kind: some window of the platform admits the access. -/
def admitted (c : Config) (addr n : Nat) (k : AccessKind) : Bool := c.windows.any fun w => Window.admits w addr n k

/-- The access is performed: it is added to the history (log entry 6). -/
def logAccess (s : State) (k : AccessKind) (addr n : Nat) : State :=
  { s with accesses := s.accesses ++ [⟨k, addr, n⟩] }

/-- The data space replaced. -/
def withMem (s : State) (m : Memory) : State := { s with mem := m }

/-- `MemRead(addr, n)` (R13, R39), going on with the bytes read; a refused access reads nothing and raises `BUS`. -/
def memRead (s : State) (addr n : Nat) (k : List Byte → State → Flow) : Flow :=
  if admitted s.cfg addr n .read then k (Memory.readBytes s.mem addr n) (logAccess s .read addr n)
  else raise s .bus addr

/-- `MemWrite(addr, n, b)` (R13, R39); a refused access writes nothing and raises `BUS`. -/
def memWrite (s : State) (addr n : Nat) (b : List Byte) : Flow :=
  if admitted s.cfg addr n .write then .ok (withMem (logAccess s .write addr n) (Memory.writeBytes s.mem addr b))
  else raise s .bus addr

/-- The byte-by-byte XOR of two byte lists (R96). -/
def xorBytes (d b : List Byte) : List Byte := List.zipWith (fun x y => x ^^^ y) d b

/-- `ChunkXor(a, n, b)` (R96): one read-xor-write. -/
def chunkXor (s : State) (a n : Nat) (b : List Byte) : Flow :=
  memRead s a n fun d t => memWrite t a n (xorBytes d b)

end Sys2Proof.Machine
end

