-- ==== Sys2Proof/Machine/Mix.lean ====
section
/-! DEFINITION. The round function and the command MIX (40_mix.md, R65 to R74), as the loop the spec writes. -/

namespace Sys2Proof.Machine

/-- The index lists `P_j` of the shuffled snapshots (R67). -/
def shuffle : Fin 4 → Vector (Fin 4) 4
  | 0 => #v[2, 0, 3, 1]
  | 1 => #v[3, 1, 0, 2]
  | 2 => #v[1, 3, 0, 2]
  | 3 => #v[3, 2, 1, 0]

/-- The rotation amounts `ROT` (R69). -/
def rotation : Fin 4 → Nat
  | 0 => 17
  | 1 => 13
  | 2 => 11
  | 3 => 7

/-- `S_j[i] = X[4j + P_j[i]]`: the snapshot gathers (R67). `x` is the block state when MIX starts. -/
def snapshot (x : Block) (j i : Fin 4) : Word := x[laneIdx j (shuffle j)[i]]

/-- One chunk's update in a round at lane `l` (R69): add, xor with a rotated word, add, all from the snapshots of `x`. -/
def laneUpdate (x : Block) (l : Fin 4) (b : Block) (j : Fin 4) : Block :=
  b.set (laneIdx j l)
    (add32 (add32 b[laneIdx j l] (snapshot x (j + 1) l) ^^^ ror32 (snapshot x (j + 3) (l + 1)) (rotation j))
      (snapshot x (j + 2) (l + 2)))

/-- One round at lane `l`: the four chunks in order (R69). -/
def mixRound (x : Block) (l : Fin 4) (b : Block) : Block := [0, 1, 2, 3].foldl (laneUpdate x l) b

/-- The four inner rounds of lane `l` (R68). -/
def mixLane (x : Block) (b : Block) (l : Fin 4) : Block := mixRound x l (mixRound x l (mixRound x l (mixRound x l b)))

/-- The round function: lanes 0 to 3, four rounds each (R68, R73). -/
def mix (x : Block) : Block := [0, 1, 2, 3].foldl (mixLane x) x

/-- The body of MIX (R73). -/
def mixBody (s : State) : Flow :=
  if blkReady s then .ok (withBlk s (mix s.blk)) else raise s .notReady 0

/-- `MIX`, R73. -/
def execMix (s : State) : Host.Outcome State Fault Refusal := .next (command mixBody s)

end Sys2Proof.Machine
end

