-- ==== Sys2Proof/Machine/Xor.lean ====
section
/-! DEFINITION. The byte-XOR datapath, commands XORB and XORM (42_xor.md, R95 to R103). -/

namespace Sys2Proof.Machine

/-- The widths below `VW`, strictly decreasing powers of two (R97). -/
def narrower : VecWidth → List Nat
  | .w64 => [32, 16, 8, 4, 2, 1]
  | .w32 => [16, 8, 4, 2, 1]
  | .w16 => [8, 4, 2, 1]
  | .w8 => [4, 2, 1]

/-- The second loop of `Sched` (R97): one chunk for each width whose bit is set in what remains. -/
def schedTail (size : Nat) : List Nat → Nat → List (Nat × Nat)
  | [], _ => []
  | w :: ws, off => if (size - off) &&& w ≠ 0 then (off, w) :: schedTail size ws (off + w) else schedTail size ws off

/-- The first loop of `Sched` (R97): `n` chunks of the widest width from `off` on. -/
def schedWide (v : Nat) : Nat → Nat → List (Nat × Nat)
  | 0, _ => []
  | n + 1, off => (off, v) :: schedWide v n (off + v)

/-- `Sched(size, VW)` (R97). The first loop runs while `size - off >= VW`, that is `size div VW` times. -/
def sched (size : Nat) (vw : VecWidth) : List (Nat × Nat) :=
  schedWide (vwBytes vw) (size / vwBytes vw) 0 ++ schedTail size (narrower vw) (vwBytes vw * (size / vwBytes vw))

/-- The chunks of a schedule, one after another (R101, R102). -/
def runChunks (chunk : State → Nat → Nat → Flow) : List (Nat × Nat) → State → Flow
  | [], s => .ok s
  | (o, w) :: cs, s => (chunk s o w).andThen (runChunks chunk cs)

/-- Two spans of the same size overlap (R100). -/
def spansOverlap (d s size : Nat) : Bool := decide (0 < size) && decide (d < s + size) && decide (s < d + size)

/-- Where the current block starts in the data space, `DADDR + OFF` over the natural numbers (R99, R101). -/
def blockStart (s : State) : Nat := s.daddr.toNat + s.off.toNat

/-- One chunk of XORB: the destination at `DADDR + OFF`, the source bytes from BLK (R101). -/
def xorbChunk (s : State) (o w : Nat) : Flow := chunkXor s (blockStart s + o) w (blkBytes s.blk o w)

/-- The body of XORB (R101). -/
def xorbBody (s : State) : Flow :=
  if !blkReady s then raise s .notReady 0
  else if s.bsz.val = 0 then .ok s
  else if spaceSize s.cfg < blockStart s + s.bsz.val then raise s .range (blockStart s)
  else runChunks xorbChunk (sched s.bsz.val s.cfg.vw) s

/-- `XORB`, R101. -/
def execXorb (s : State) : Host.Outcome State Fault Refusal := .next (command xorbBody s)

/-- One chunk of XORM: the source read, then the destination's read-xor-write (R49, R102). -/
def xormChunk (s : State) (o w : Nat) : Flow :=
  memRead s (s.saddr.toNat + o) w fun b t => chunkXor t (t.daddr.toNat + o) w b

/-- The body of XORM (R102). -/
def xormBody (s : State) : Flow :=
  if s.dlen.toNat = 0 then .ok s
  else if spaceSize s.cfg < s.daddr.toNat + s.dlen.toNat ∨ spaceSize s.cfg < s.saddr.toNat + s.dlen.toNat then
    raise s .range s.daddr.toNat
  else if spansOverlap s.daddr.toNat s.saddr.toNat s.dlen.toNat then raise s .overlap s.daddr.toNat
  else runChunks xormChunk (sched s.dlen.toNat s.cfg.vw) s

/-- `XORM`, R102. -/
def execXorm (s : State) : Host.Outcome State Fault Refusal := .next (command xormBody s)

end Sys2Proof.Machine
end

