-- ==== Sys2Proof/Machine/Keystream.lean ====
section
/-! DEFINITION. The keystream driver (41_keystream.md, R75 to R94): the step commands SEED, BSIZE, COPY, CTRINC, FOLD and ADV, and
the composite commands BLOCK and APPLY. -/

namespace Sys2Proof.Machine

/-- `CONST ∥ KEY ∥ NONCE`, the sixteen words of a seeded base state (R22, R76). -/
def seedWords (c : Vector Word 4) (k : Key) (n : Nonce) : Block := c ++ k ++ n

/-- The body of SEED (R76, R77). -/
def seedBody (s : State) : Flow :=
  if keyed s then
    .ok (withSequencer (withSeeded (withBase s (seedWords s.cfg.const s.key s.nonce))) 0 s.dlen 0)
  else raise s .notReady 0

/-- `SEED`, R76. -/
def execSeed (s : State) : Host.Outcome State Fault Refusal := .next (command seedBody s)

/-- `min(64, n)`, a block size (R78). -/
def blockSize (n : Nat) : Fin 65 := ⟨min 64 n, by omega⟩

/-- The body of BSIZE (R78). -/
def bsizeBody (s : State) : Flow := .ok (withSequencer s s.off s.rem (blockSize s.rem.toNat))

/-- `BSIZE`, R78. -/
def execBsize (s : State) : Host.Outcome State Fault Refusal := .next (command bsizeBody s)

/-- The body of COPY (R79). -/
def copyBody (s : State) : Flow :=
  if s.seeded then .ok (withBlkv (withBlk s s.base) 0xFFFF) else raise s .notReady 0

/-- `COPY`, R79. -/
def execCopy (s : State) : Host.Outcome State Fault Refusal := .next (command copyBody s)

/-- The base state with `n` added to each of its first four words, independently (R80). -/
def counterAdd (b : Block) (n : Nat) : Block :=
  Vector.ofFn fun i => if i.val < 4 then add32 b[i] (BitVec.ofNat 32 n) else b[i]

/-- The body of CTRINC (R80). -/
def ctrincBody (s : State) : Flow :=
  if s.seeded then .ok (withBase s (counterAdd s.base s.bsz.val)) else raise s .notReady 0

/-- `CTRINC`, R80. -/
def execCtrinc (s : State) : Host.Outcome State Fault Refusal := .next (command ctrincBody s)

/-- The sixteen sums `BLK[i] + BASE[i]` (R82). -/
def foldWords (x y : Block) : Block := Vector.ofFn fun i => add32 x[i] y[i]

/-- The body of FOLD (R82). -/
def foldBody (s : State) : Flow :=
  if s.seeded && blkReady s then .ok (withBlk s (foldWords s.blk s.base)) else raise s .notReady 0

/-- `FOLD`, R82. -/
def execFold (s : State) : Host.Outcome State Fault Refusal := .next (command foldBody s)

/-- The body of ADV (R83): `AW`-bit addition and subtraction, which by rule R29 neither overflow nor underflow. -/
def advBody (s : State) : Flow :=
  .ok (withSequencer s (narrow s.cfg (s.off + BitVec.ofNat 64 s.bsz.val).toNat)
    (narrow s.cfg (s.rem - BitVec.ofNat 64 s.bsz.val).toNat) 0)

/-- `ADV`, R83. -/
def execAdv (s : State) : Host.Outcome State Fault Refusal := .next (command advBody s)

/-- Steps 2a to 2g, each exactly as its own rule says, in this order (R84). A step's fault ends the sequence (R87). -/
def blockSteps (s : State) : Flow :=
  ((((((bsizeBody s).andThen copyBody).andThen ctrincBody).andThen mixBody).andThen foldBody).andThen xorbBody).andThen advBody

/-- The body of BLOCK (R84): nothing when nothing remains. -/
def blockBody (s : State) : Flow := if s.rem = 0 then .ok s else blockSteps s

/-- `BLOCK`, R84. -/
def execBlock (s : State) : Host.Outcome State Fault Refusal := .next (command blockBody s)

/-- The loop of APPLY with a bound on its iterations: `while REM != 0: BLOCK` (R85). -/
def blockLoop : Nat → State → Flow
  | 0, s => .ok s
  | n + 1, s => if s.rem = 0 then .ok s else (blockBody s).andThen (blockLoop n)

/-- The loop of APPLY runs `ceil(REM / 64)` times at the most (R85, R134; log entry 15). -/
def applyLoop (s : State) : Flow := blockLoop ((s.rem.toNat + 63) / 64) s

/-- The body of APPLY (R85): SEED, then the loop. -/
def applyBody (s : State) : Flow := (seedBody s).andThen applyLoop

/-- `APPLY`, R85. -/
def execApply (s : State) : Host.Outcome State Fault Refusal := .next (command applyBody s)

end Sys2Proof.Machine
end

