-- ==== Sys2Proof/Machine/System.lean ====
section
/-! DEFINITION. The command that computes nothing (43_system.md, R104). -/

namespace Sys2Proof.Machine

/-- The body of NOP (R104). -/
def nopBody (s : State) : Flow := .ok s

/-- `NOP`, R104. -/
def execNop (s : State) : Host.Outcome State Fault Refusal := .next (command nopBody s)

end Sys2Proof.Machine
end

