-- ==== Sys2Proof/Machine/Dispatch.lean ====
section
/-! DEFINITION. One arm per command: what the engine does when the command word of `i` is written to CMD (R59, R60). -/

namespace Sys2Proof.Machine

def exec (i : Instr) (s : State) : Host.Outcome State Fault Refusal :=
  match i with
  | .nop => Sys2Proof.Machine.execNop s
  | .seed => Sys2Proof.Machine.execSeed s
  | .bsize => Sys2Proof.Machine.execBsize s
  | .copy => Sys2Proof.Machine.execCopy s
  | .ctrinc => Sys2Proof.Machine.execCtrinc s
  | .mix => Sys2Proof.Machine.execMix s
  | .fold => Sys2Proof.Machine.execFold s
  | .xorb => Sys2Proof.Machine.execXorb s
  | .adv => Sys2Proof.Machine.execAdv s
  | .block => Sys2Proof.Machine.execBlock s
  | .apply => Sys2Proof.Machine.execApply s
  | .xorm => Sys2Proof.Machine.execXorm s

end Sys2Proof.Machine
end

