-- ==== Sys2Proof/Machine/HostPort.lean ====
section
/-! DEFINITION. The register interface: what a host write, a host read and a reset do (R105, R106, R124), the write of CMD among
them (R59). -/

namespace Sys2Proof.Machine

/-- A write of `w` to CMD (R59): a command is executed, any other word raises `ILLEGAL` with the word as the address. -/
def writeCmd (w : Word) (s : State) : Host.Outcome State Fault Refusal :=
  match decode w with
  | .ok i => exec i s
  | .error _ => .next (command (fun t => raise t .illegal w.toNat) s)

/-- What a write of `v` stores in the register other than CMD (R105); read-only and reserved slots ignore it (R57). -/
def storeReg (r : Reg) (v : Word) (s : State) : State :=
  match r with
  | .daddrLo => { s with daddr := withLo s.cfg s.daddr v }
  | .daddrHi => { s with daddr := withHi s.cfg s.daddr v }
  | .dlenLo => { s with dlen := withLo s.cfg s.dlen v }
  | .dlenHi => { s with dlen := withHi s.cfg s.dlen v }
  | .saddrLo => { s with saddr := withLo s.cfg s.saddr v }
  | .saddrHi => { s with saddr := withHi s.cfg s.saddr v }
  | .key i => { s with key := s.key.set i v, kv := setBit s.kv i }
  | .nonce i => { s with nonce := s.nonce.set i v, nv := setBit s.nv i }
  | .blk i => { s with blk := s.blk.set i v, blkv := setBit s.blkv i }
  | .cmd => s
  | .status => s
  | .faddrLo => s
  | .faddrHi => s
  | .offLo => s
  | .offHi => s
  | .remLo => s
  | .remHi => s
  | .bsz => s
  | .valid => s
  | .base _ => s
  | .reserved _ => s

/-- `WR reg, v` (R105): ignored when FAULT or BUSY is 1, whatever the register. -/
def writeReg (r : Reg) (v : Word) (s : State) : Host.Outcome State Fault Refusal :=
  if gated s then .next s
  else
    match r with
    | .cmd => writeCmd v s
    | _ => .next (storeReg r v s)

/-- The value the register map gives for a register (R55, R106). -/
def readReg (r : Reg) (s : State) : Word :=
  match r with
  | .cmd => 0
  | .status => statusWord s
  | .faddrLo => loHalf s.faddr
  | .faddrHi => hiHalf s.faddr
  | .daddrLo => loHalf s.daddr
  | .daddrHi => hiHalf s.daddr
  | .dlenLo => loHalf s.dlen
  | .dlenHi => hiHalf s.dlen
  | .saddrLo => loHalf s.saddr
  | .saddrHi => hiHalf s.saddr
  | .offLo => loHalf s.off
  | .offHi => hiHalf s.off
  | .remLo => loHalf s.rem
  | .remHi => hiHalf s.rem
  | .bsz => BitVec.ofNat 32 s.bsz.val
  | .valid => validWord s
  | .key i => s.key[i]
  | .nonce i => s.nonce[i]
  | .base i => s.base[i]
  | .blk i => s.blk[i]
  | .reserved _ => 0

/-- The registers whose value is unspecified while a command runs (R128, U9). -/
def unstable (r : Reg) : Bool :=
  match r with
  | .base _ => true
  | .blk _ => true
  | .offLo => true
  | .offHi => true
  | .remLo => true
  | .remHi => true
  | .bsz => true
  | .valid => true
  | _ => false

/-- `RD reg` (R106): the value goes to the host and nothing else changes. -/
def readStep (r : Reg) (s : State) : Host.Outcome State Fault Refusal :=
  if s.busy && unstable r then .refused (.readWhileBusy r)
  else .next { s with reads := s.reads ++ [readReg r s] }

/-- Reset (R124, R36): every register and validity bit takes its reset value; the configuration, the data space and what belongs
to the host stay as they are. -/
def resetEngine (s : State) : State :=
  { State.reset with
    mem := s.mem
    cfg := s.cfg
    host := s.host
    reads := s.reads
    accesses := s.accesses }

/-- One host step (R15). A bus access that reaches no register is not an engine operation and is refused (R56). -/
def hostStep (h : HostStep) (s : State) : Host.Outcome State Fault Refusal :=
  match h with
  | .write offset size v =>
    match busReg offset size with
    | some r => writeReg r v s
    | none => .refused (.badBusAccess offset size)
  | .read offset size =>
    match busReg offset size with
    | some r => readStep r s
    | none => .refused (.badBusAccess offset size)
  | .reset => .next (resetEngine s)

/-- The host's next step; with none pending the engine is idle and keeps all its state (R123, R125, R133; log entry 4). -/
def hostTurn (s : State) : Host.Outcome State Fault Refusal :=
  match s.host with
  | [] => .next s
  | h :: t => hostStep h { s with host := t }

/-- The state with a write of the word `w` to CMD as the host's next step. -/
def placeCommand (s : State) (w : Nat) : State :=
  { s with host := .write (Reg.offset .cmd) 4 (BitVec.ofNat 32 w) :: s.host }

end Sys2Proof.Machine
end

