-- ==== Sys2Proof/Machine/Step.lean ====
section
/-! DEFINITION. One step of the machine: the host's next step, with the command it starts performed whole (R15). -/

namespace Sys2Proof.Machine

/-- One step: the engine does nothing until the host accesses a register (R125), so a step is the host's next step. -/
def step (s : State) : Host.Outcome State Fault Refusal := hostTurn s

/-- `s` with the command word `w` as the next thing the host writes to CMD. The engine fetches nothing (R30): a program is the
host's script, loaded from outside (log entry 14). -/
def State.withFetchWord (s : State) (_nbits w : Nat) : State := placeCommand s w

end Sys2Proof.Machine
end

