-- ==== Sys2Proof/Machine/Script.lean ====
section
/-! DEFINITION. The script syntax (R63) and the pseudo-operations (R64): the lines of a host program, the bus transactions they
stand for, and the reader of their text. -/

namespace Sys2Proof.Machine

/-- A line of a script: the three lines of rule R63 and the pseudo-operations of rule R64. -/
inductive ScriptLine where
  | wr (r : Reg) (v : Word)
  | rd (r : Reg)
  | cmd (i : Instr)
  | loadKey (k : Key)
  | loadNonce (n : Nonce)
  | setDst (a : Addr)
  | setSrc (a : Addr)
  | setLen (n : Addr)
  | loadBlk (b : Block)
  | encrypt
  | decrypt
  deriving DecidableEq, Repr

/-- The bus transaction of `WR reg, v` (R63). -/
def busWrite (r : Reg) (v : Word) : HostStep := .write r.offset 4 v

/-- The bus transaction of `RD reg` (R63). -/
def busRead (r : Reg) : HostStep := .read r.offset 4

/-- The bus transactions of a line, in order (R63, R64). -/
def lineSteps (l : ScriptLine) : List HostStep :=
  match l with
  | .wr r v => [busWrite r v]
  | .rd r => [busRead r]
  | .cmd i => [busWrite .cmd (encode i)]
  | .loadKey k => (List.finRange 8).map fun i => busWrite (.key i) k[i]
  | .loadNonce n => (List.finRange 4).map fun i => busWrite (.nonce i) n[i]
  | .setDst a => [busWrite .daddrLo (loHalf a), busWrite .daddrHi (hiHalf a)]
  | .setSrc a => [busWrite .saddrLo (loHalf a), busWrite .saddrHi (hiHalf a)]
  | .setLen n => [busWrite .dlenLo (loHalf n), busWrite .dlenHi (hiHalf n)]
  | .loadBlk b => (List.finRange 16).map fun i => busWrite (.blk i) b[i]
  | .encrypt => [busWrite .cmd (encode .apply)]
  | .decrypt => [busWrite .cmd (encode .apply)]

/-- The encoding of a script: the list of its bus transactions (R63). -/
def scriptSteps (ls : List ScriptLine) : List HostStep := ls.flatMap lineSteps

/-! The text of a script (R63). A text is a list of characters; tokens are separated by spaces, tabs and commas (log entry 20). -/

/-- The text before the first `;`: a comment runs to the end of the line (R63). -/
def dropComment : List Char → List Char
  | [] => []
  | c :: cs => if c = ';' then [] else c :: dropComment cs

/-- The runs of characters between separators; `acc` is the run being read, reversed. -/
def splitRuns (sep : Char → Bool) (acc : List Char) : List Char → List (List Char)
  | [] => [acc.reverse]
  | c :: cs => if sep c then acc.reverse :: splitRuns sep [] cs else splitRuns sep (c :: acc) cs

/-- The tokens of a line. -/
def tokens (line : List Char) : List (List Char) :=
  (splitRuns (fun c => c = ' ' || c = '\t' || c = ',') [] (dropComment line)).filter fun t => !t.isEmpty

/-- The value of a digit in base `b`. -/
def digitOf (b : Nat) (c : Char) : Option Nat :=
  let v := if '0'.toNat ≤ c.toNat ∧ c.toNat ≤ '9'.toNat then some (c.toNat - '0'.toNat)
    else if 'A'.toNat ≤ c.toNat ∧ c.toNat ≤ 'F'.toNat then some (c.toNat - 'A'.toNat + 10)
    else if 'a'.toNat ≤ c.toNat ∧ c.toNat ≤ 'f'.toNat then some (c.toNat - 'a'.toNat + 10)
    else none
  v.bind fun d => if d < b then some d else none

/-- The number a list of digits in base `b` writes, after `acc`. -/
def digitsFrom (b acc : Nat) : List Char → Option Nat
  | [] => some acc
  | c :: cs => (digitOf b c).bind fun d => digitsFrom b (b * acc + d) cs

/-- A number: decimal, or hexadecimal after `0x` (R63). -/
def numberOf (t : List Char) : Option Nat :=
  match t with
  | [] => none
  | '0' :: 'x' :: [] => none
  | '0' :: 'x' :: ds => digitsFrom 16 0 ds
  | ds => digitsFrom 10 0 ds

/-- A number below `2^w`. -/
def valueOf (w : Nat) (t : List Char) : Option (BitVec w) :=
  (numberOf t).bind fun n => if n < 2 ^ w then some (BitVec.ofNat w n) else none

/-- The decimal digits of a number below 100. -/
def smallDecimal (n : Nat) : List Char :=
  if n < 10 then [Char.ofNat (48 + n)] else [Char.ofNat (48 + n / 10), Char.ofNat (48 + n % 10)]

/-- The name of a register (R55); the reserved slots have none. -/
def regName (r : Reg) : Option (List Char) :=
  match r with
  | .cmd => some "CMD".toList
  | .status => some "STATUS".toList
  | .faddrLo => some "FADDR_LO".toList
  | .faddrHi => some "FADDR_HI".toList
  | .daddrLo => some "DADDR_LO".toList
  | .daddrHi => some "DADDR_HI".toList
  | .dlenLo => some "DLEN_LO".toList
  | .dlenHi => some "DLEN_HI".toList
  | .saddrLo => some "SADDR_LO".toList
  | .saddrHi => some "SADDR_HI".toList
  | .offLo => some "OFF_LO".toList
  | .offHi => some "OFF_HI".toList
  | .remLo => some "REM_LO".toList
  | .remHi => some "REM_HI".toList
  | .bsz => some "BSZ".toList
  | .valid => some "VALID".toList
  | .key i => some ("KEY".toList ++ smallDecimal i)
  | .nonce i => some ("NONCE".toList ++ smallDecimal i)
  | .base i => some ("BASE".toList ++ smallDecimal i)
  | .blk i => some ("BLK".toList ++ smallDecimal i)
  | .reserved _ => none

/-- The registers in the order of their slots (R55). -/
def allRegs : List Reg := (List.range 64).filterMap Reg.ofSlot

/-- The register a token names: by its name, or by its byte offset as a number. -/
def regOf (t : List Char) : Option Reg :=
  match allRegs.find? fun r => regName r = some t with
  | some r => some r
  | none => (numberOf t).bind Reg.ofOffset

/-- The mnemonic of a command (R60). -/
def mnemonic : Instr → List Char
  | .nop => "NOP".toList
  | .seed => "SEED".toList
  | .bsize => "BSIZE".toList
  | .copy => "COPY".toList
  | .ctrinc => "CTRINC".toList
  | .mix => "MIX".toList
  | .fold => "FOLD".toList
  | .xorb => "XORB".toList
  | .adv => "ADV".toList
  | .block => "BLOCK".toList
  | .apply => "APPLY".toList
  | .xorm => "XORM".toList

/-- The command a mnemonic names (R60). -/
def commandOf (t : List Char) : Option Instr :=
  ((List.range 12).filterMap fun n => ofOpcode (BitVec.ofNat 4 n)).find? fun i => mnemonic i = t

/-- `n` words from `n` tokens. -/
def wordsOf (n : Nat) (ts : List (List Char)) : Option (Vector Word n) :=
  match ts.mapM (valueOf 32) with
  | some ws => if h : ws.toArray.size = n then some ⟨ws.toArray, h⟩ else none
  | none => none

/-- The line the tokens write; none if they write no line of rules R63 and R64. -/
def lineOf (ts : List (List Char)) : Option ScriptLine :=
  match ts with
  | op :: args =>
    if op = "WR".toList then
      match args with
      | [r, v] => (regOf r).bind fun r => (valueOf 32 v).map fun v => .wr r v
      | _ => none
    else if op = "RD".toList then
      match args with
      | [r] => (regOf r).map .rd
      | _ => none
    else if op = "CMD".toList then
      match args with
      | [m] => (commandOf m).map .cmd
      | _ => none
    else if op = "LOADKEY".toList then (wordsOf 8 args).map .loadKey
    else if op = "LOADNONCE".toList then (wordsOf 4 args).map .loadNonce
    else if op = "LOADBLK".toList then (wordsOf 16 args).map .loadBlk
    else if op = "SETDST".toList then
      match args with
      | [a] => (valueOf 64 a).map .setDst
      | _ => none
    else if op = "SETSRC".toList then
      match args with
      | [a] => (valueOf 64 a).map .setSrc
      | _ => none
    else if op = "SETLEN".toList then
      match args with
      | [n] => (valueOf 64 n).map .setLen
      | _ => none
    else if op = "ENCRYPT".toList then (if args.isEmpty then some .encrypt else none)
    else if op = "DECRYPT".toList then (if args.isEmpty then some .decrypt else none)
    else none
  | [] => none

/-- The script a text writes, one line each, empty lines and comment lines left out; none if some line is no script line (R63). -/
def parseScript (text : List Char) : Option (List ScriptLine) :=
  (((splitRuns (fun c => c = '\n') [] text).map tokens).filter fun ts => !ts.isEmpty).mapM lineOf

end Sys2Proof.Machine
end

