-- ==== Sys2Proof/WellFormed.lean ====
section
/-! DEFINITION. Well-formedness. A command has no operand, so every command is well formed (R58, R61); what can be ill formed is
a host step: an access that is not 32 bits wide, not at a multiple of 4, or outside 0x000 to 0x0FC (R56). -/

namespace Sys2Proof

/-- Every command is well formed: the command word has no operand field (R58, R61). -/
def Instr.wellFormed : Instr → Bool
  | .nop => true
  | .seed => true
  | .bsize => true
  | .copy => true
  | .ctrinc => true
  | .mix => true
  | .fold => true
  | .xorb => true
  | .adv => true
  | .block => true
  | .apply => true
  | .xorm => true

namespace Machine

/-- The three conditions of rule R56 on a register access: 32 bits wide, at a multiple of 4, inside the 256 bytes. -/
def accessWellFormed (offset size : Nat) : Bool :=
  size == 4 && offset % 4 == 0 && decide (offset < 0x100)

/-- A host step the engine has (R15, R56); reset always is one (R124). -/
def HostStep.wellFormed : HostStep → Bool
  | .write offset size _ => accessWellFormed offset size
  | .read offset size => accessWellFormed offset size
  | .reset => true

end Machine

end Sys2Proof
end

