-- ==== Sys2Proof/Safety.lean ====
section
/-! DEFINITION. The terms in which claims speak of a run: a ready engine, a final state (R133), the invariants (R29, R31, R32), the
admission of a whole span (R39), and the keystream as a function (R88). -/

namespace Sys2Proof.Machine

/-- The engine takes commands: it is neither faulted nor busy (R59 step 1). -/
abbrev State.ready (s : State) : Prop := s.fault = false ∧ s.busy = false

/-- An end state is final if and only if `STATUS.FAULT = 0` (R133). -/
abbrev State.final (s : State) : Prop := s.fault = false

/-- What a completed command adds to the effect of its rule (R31, R59 step 5). -/
def completed (s : State) : State := { s with busy := false, done := true }

/-- What a fault leaves of a ready engine's command that has changed nothing else: FAULT, CAUSE and FADDR written, BUSY and DONE 0
(R113, R114). -/
def faulted (s : State) (c : Cause) (a : Addr) : State :=
  { s with fault := true, cause := some c, faddr := a, busy := false, done := false }

/-- A command after a command, for the composite commands (R84, R85, R87). -/
def thenCommand (o : Host.Outcome State Fault Refusal) (i : Instr) : Host.Outcome State Fault Refusal :=
  match o with
  | .next s => exec i s
  | .fault r => .fault r
  | .refused r => .refused r

/-! Invariants. -/

/-- The sequencer invariants (R29): `BSZ ≤ REM`; `OFF + REM` is a byte count; `REM ≠ 0` only after a SEED. -/
abbrev State.sequencerInv (s : State) : Prop :=
  s.bsz.val ≤ s.rem.toNat ∧ s.off.toNat + s.rem.toNat < spaceSize s.cfg ∧ (s.rem ≠ 0 → s.seeded = true)

/-- The `AW`-bit registers hold `AW`-bit values, so the reserved bits of their HI halves read 0 (R27, R55). -/
abbrev State.widthInv (s : State) : Prop :=
  s.daddr.toNat < spaceSize s.cfg ∧ s.saddr.toNat < spaceSize s.cfg ∧ s.dlen.toNat < spaceSize s.cfg ∧
    s.off.toNat < spaceSize s.cfg ∧ s.rem.toNat < spaceSize s.cfg ∧ s.faddr.toNat < spaceSize s.cfg

/-- The status bits between host steps (R31, R32): not busy; a cause if and only if faulted; never done and faulted; no fault
address before a fault. -/
abbrev State.statusInv (s : State) : Prop :=
  s.busy = false ∧ s.fault = s.cause.isSome ∧ (s.fault = true → s.done = false) ∧ (s.fault = false → s.faddr = 0)

/-- The data space is in its canonical form and holds no byte outside `2^AW` (R37). -/
abbrev State.memoryInv (s : State) : Prop :=
  Memory.wf s.mem = true ∧ Memory.below (spaceSize s.cfg) s.mem = true

/-- The invariant of the machine between host steps. -/
abbrev State.Inv (s : State) : Prop := s.sequencerInv ∧ s.widthInv ∧ s.statusInv ∧ s.memoryInv

/-! Admission of spans. -/

/-- The memory admits the read and the write of every chunk of a destination span (R39, R97). -/
def spanAdmitted (c : Config) (start size : Nat) : Bool :=
  (sched size c.vw).all fun ow => admitted c (start + ow.1) ow.2 .read && admitted c (start + ow.1) ow.2 .write

/-- The memory admits the reads of every chunk of a source span (R39, R97, R102). -/
def sourceAdmitted (c : Config) (start size : Nat) : Bool :=
  (sched size c.vw).all fun ow => admitted c (start + ow.1) ow.2 .read

/-- The span lies inside the address space (R99). -/
def inSpace (c : Config) (start size : Nat) : Bool := decide (start + size ≤ spaceSize c)

/-- The size of block `b` of a buffer of `n` bytes (R85). -/
def sizeOfBlock (n b : Nat) : Nat := min 64 (n - 64 * b)

/-- The number of blocks of a buffer of `n` bytes, `ceil(n / 64)` (R85). -/
def blockCount (n : Nat) : Nat := (n + 63) / 64

/-- The memory admits every block below `count` of a buffer of `n` bytes at `start`, and each lies in the address space
(R39, R85, R99). -/
abbrev blocksAdmitted (c : Config) (start n count : Nat) : Prop :=
  ∀ b, b < count → inSpace c (start + 64 * b) (sizeOfBlock n b) = true ∧
    spanAdmitted c (start + 64 * b) (sizeOfBlock n b) = true

/-! The keystream as a function. -/

/-- One round of a lane with fixed operands, `f` of rule R71. -/
def laneRound (a b c x : Word) : Word := (x + a ^^^ b) + c

/-- Four rounds of a lane (R71). -/
def laneResult (a b c x : Word) : Word := laneRound a b c (laneRound a b c (laneRound a b c (laneRound a b c x)))

/-- The keystream words of a block from the base state before it and the size of the block (R88). -/
def keystreamWords (b : Block) (size : Nat) : Block := foldWords (mix b) (counterAdd b size)

/-- The keystream block of block `b` in an invocation over `n` bytes (R85, R88). -/
def keystreamBlock (c : Vector Word 4) (k : Key) (nonce : Nonce) (n b : Nat) : Block :=
  keystreamWords (counterAdd (seedWords c k nonce) (64 * b)) (sizeOfBlock n b)

/-- The keystream byte for the buffer offset `k` in an invocation over `n` bytes (R88, R89). -/
def keystreamByte (c : Vector Word 4) (k : Key) (nonce : Nonce) (n pos : Nat) : Byte :=
  blkByte (keystreamBlock c k nonce n (pos / 64)) (Fin.ofNat 64 (pos % 64))

/-- The number the register map gives for a register (R31, R33, R55), written as sums of fields. -/
def mapValue (s : State) (r : Reg) : Nat :=
  match r with
  | .cmd => 0
  | .status => s.busy.toNat + 2 * s.done.toNat + 4 * s.fault.toNat + 16 * (causeField s.cause).toNat
  | .faddrLo => s.faddr.toNat % 2 ^ 32
  | .faddrHi => s.faddr.toNat / 2 ^ 32
  | .daddrLo => s.daddr.toNat % 2 ^ 32
  | .daddrHi => s.daddr.toNat / 2 ^ 32
  | .dlenLo => s.dlen.toNat % 2 ^ 32
  | .dlenHi => s.dlen.toNat / 2 ^ 32
  | .saddrLo => s.saddr.toNat % 2 ^ 32
  | .saddrHi => s.saddr.toNat / 2 ^ 32
  | .offLo => s.off.toNat % 2 ^ 32
  | .offHi => s.off.toNat / 2 ^ 32
  | .remLo => s.rem.toNat % 2 ^ 32
  | .remHi => s.rem.toNat / 2 ^ 32
  | .bsz => s.bsz.val
  | .valid => s.kv.toNat + 2 ^ 8 * s.nv.toNat + 2 ^ 12 * s.seeded.toNat + 2 ^ 16 * s.blkv.toNat
  | .key i => s.key[i].toNat
  | .nonce i => s.nonce[i].toNat
  | .base i => s.base[i].toNat
  | .blk i => s.blk[i].toNat
  | .reserved _ => 0

end Sys2Proof.Machine
end

