-- ==== Sys2Proof/Certificates/Slice0/Obligations.lean ====
section
/-! DEFINITION. The statements about the SSC-32 ARX engine, in the order of the spec's files: encoding, the register interface, the
status and its invariants, each command, the schedule of accesses, faults, and the driver as a whole. -/

open Sys2Proof Sys2Proof.Machine

/-! Encoding. -/

/-- R60: the twelve command words and the commands they are, written out from the opcode map. -/
def Obligations.CommandWordsDecode : Prop :=
  decode 0x00000000 = .ok .nop ∧ decode 0x00000001 = .ok .seed ∧ decode 0x00000002 = .ok .bsize ∧
  decode 0x00000003 = .ok .copy ∧ decode 0x00000004 = .ok .ctrinc ∧ decode 0x00000005 = .ok .mix ∧
  decode 0x00000006 = .ok .fold ∧ decode 0x00000007 = .ok .xorb ∧ decode 0x00000008 = .ok .adv ∧
  decode 0x00000009 = .ok .block ∧ decode 0x0000000A = .ok .apply ∧ decode 0x0000000B = .ok .xorm

/-- Decoding the word of a well-formed command gives the command back, and no other word decodes to it. -/
def Obligations.DecodeInvertsEncode : Prop :=
  (∀ i : Instr, i.wellFormed = true → decode (encode i) = .ok i) ∧
  ∀ (w : Word) (i : Instr), decode w = .ok i → w = encode i

/-- R62: over all 2^32 words, twelve are commands; the words 0xC to 0xF are reserved and every higher word is malformed. -/
def Obligations.EveryOtherWordIsIllegal : Prop :=
  ∀ w : Word,
    ((∃ i, decode w = .ok i) ↔ w.toNat < 12) ∧
    (decode w = .error .reserved ↔ 12 ≤ w.toNat ∧ w.toNat < 16) ∧
    (decode w = .error .malformed ↔ 16 ≤ w.toNat)

/-- R55, R38: where each register lies, that its offset reaches it and no other offset does, and that exactly the multiples of 4
inside 0x000 to 0x0FC are slots. -/
def Obligations.RegisterMapIsExact : Prop :=
  (Reg.offset .cmd = 0x000 ∧ Reg.offset .status = 0x004 ∧ Reg.offset .faddrLo = 0x008 ∧ Reg.offset .faddrHi = 0x00C ∧
    Reg.offset .daddrLo = 0x010 ∧ Reg.offset .daddrHi = 0x014 ∧ Reg.offset .dlenLo = 0x018 ∧ Reg.offset .dlenHi = 0x01C ∧
    Reg.offset .saddrLo = 0x020 ∧ Reg.offset .saddrHi = 0x024 ∧ Reg.offset .offLo = 0x028 ∧ Reg.offset .offHi = 0x02C ∧
    Reg.offset .remLo = 0x030 ∧ Reg.offset .remHi = 0x034 ∧ Reg.offset .bsz = 0x038 ∧ Reg.offset .valid = 0x070) ∧
  (∀ i, Reg.offset (.key i) = 0x040 + 4 * i.val) ∧ (∀ i, Reg.offset (.nonce i) = 0x060 + 4 * i.val) ∧
  (∀ i, Reg.offset (.base i) = 0x080 + 4 * i.val) ∧ (∀ i, Reg.offset (.blk i) = 0x0C0 + 4 * i.val) ∧
  (Reg.offset (.reserved 0) = 0x03C ∧ Reg.offset (.reserved 1) = 0x074 ∧ Reg.offset (.reserved 2) = 0x078 ∧
    Reg.offset (.reserved 3) = 0x07C) ∧
  (∀ r, Reg.ofOffset r.offset = some r) ∧ (∀ o r, Reg.ofOffset o = some r → o = r.offset) ∧
  ∀ o, (Reg.ofOffset o).isSome = true ↔ o % 4 = 0 ∧ o < 0x100

/-- R64: the bus transactions of the pseudo-operations, each in ascending order, and of ENCRYPT and DECRYPT. -/
def Obligations.PseudoOperationsExpand : Prop :=
  (∀ k, lineSteps (.loadKey k) = (List.finRange 8).map fun i => .write (0x040 + 4 * i.val) 4 k[i]) ∧
  (∀ m, lineSteps (.loadNonce m) = (List.finRange 4).map fun i => .write (0x060 + 4 * i.val) 4 m[i]) ∧
  (∀ b, lineSteps (.loadBlk b) = (List.finRange 16).map fun i => .write (0x0C0 + 4 * i.val) 4 b[i]) ∧
  (∀ a : Addr, ∃ lo hi : Word, lo.toNat = a.toNat % 2 ^ 32 ∧ hi.toNat = a.toNat / 2 ^ 32 ∧
    lineSteps (.setDst a) = [.write 0x010 4 lo, .write 0x014 4 hi] ∧
    lineSteps (.setSrc a) = [.write 0x020 4 lo, .write 0x024 4 hi] ∧
    lineSteps (.setLen a) = [.write 0x018 4 lo, .write 0x01C 4 hi]) ∧
  lineSteps .encrypt = [.write 0x000 4 0x0000000A] ∧ lineSteps .decrypt = [.write 0x000 4 0x0000000A]

/-! The register interface. -/

/-- When the host's next step writes a command word to CMD, the step is that command, performed after the step has been taken off
the script. -/
def Obligations.StepRunsDecodedCommand : Prop :=
  ∀ (s : State) (w : Word) (i : Instr) (rest : List HostStep),
    s.host = .write 0x000 4 w :: rest → decode w = .ok i → step s = exec i { s with host := rest }

/-- R59 (3), R62, R113: any other word written to the CMD of a ready engine raises ILLEGAL, records the low `AW` bits of the word
and changes nothing else. -/
def Obligations.IllegalWordFaults : Prop :=
  ∀ (s : State) (w : Word) (rest : List HostStep),
    s.ready → s.host = .write 0x000 4 w :: rest → 12 ≤ w.toNat →
    ∃ a : Addr, a.toNat = w.toNat % 2 ^ addrWidth s.cfg ∧ step s = .next (faulted { s with host := rest } .illegal a)

/-- R115, R105: while FAULT is 1, and while BUSY is 1, every register write is ignored, CMD included. -/
def Obligations.GatedEngineIgnoresWrites : Prop :=
  ∀ (s : State) (r : Reg) (v : Word) (rest : List HostStep),
    s.fault = true ∨ s.busy = true → s.host = .write r.offset 4 v :: rest → step s = .next { s with host := rest }

/-- R59 (1): a command given to a faulted or busy engine changes nothing. -/
def Obligations.GatedCommandChangesNothing : Prop :=
  ∀ (i : Instr) (s : State), s.fault = true ∨ s.busy = true → exec i s = .next s

/-- R21, R24, R105: a host write to a word of KEY, NONCE or BLK stores the word, sets its validity bit and changes nothing else. -/
def Obligations.HostWriteLoadsWord : Prop :=
  ∀ (s : State) (v : Word) (rest : List HostStep), s.ready →
    (∀ i : Fin 8, s.host = .write (0x040 + 4 * i.val) 4 v :: rest →
      ∃ t, step s = .next t ∧ t = { s with host := rest, key := t.key, kv := t.kv } ∧ t.key[i] = v ∧
        (∀ j : Fin 8, j ≠ i → t.key[j] = s.key[j]) ∧ ∀ j : Fin 8, t.kv.getLsbD j = (s.kv.getLsbD j || decide (j = i))) ∧
    (∀ i : Fin 4, s.host = .write (0x060 + 4 * i.val) 4 v :: rest →
      ∃ t, step s = .next t ∧ t = { s with host := rest, nonce := t.nonce, nv := t.nv } ∧ t.nonce[i] = v ∧
        (∀ j : Fin 4, j ≠ i → t.nonce[j] = s.nonce[j]) ∧ ∀ j : Fin 4, t.nv.getLsbD j = (s.nv.getLsbD j || decide (j = i))) ∧
    ∀ i : Fin 16, s.host = .write (0x0C0 + 4 * i.val) 4 v :: rest →
      ∃ t, step s = .next t ∧ t = { s with host := rest, blk := t.blk, blkv := t.blkv } ∧ t.blk[i] = v ∧
        (∀ j : Fin 16, j ≠ i → t.blk[j] = s.blk[j]) ∧ ∀ j : Fin 16, t.blkv.getLsbD j = (s.blkv.getLsbD j || decide (j = i))

/-- R27, R55, R105: a host write to a half of DADDR, DLEN or SADDR replaces that half, drops the bits at and above `AW`, and
changes nothing else. -/
def Obligations.HostWriteReplacesHalf : Prop :=
  ∀ (s : State) (v : Word) (rest : List HostStep), s.ready →
    let lo (x : Addr) : Nat := (x.toNat / 2 ^ 32 * 2 ^ 32 + v.toNat) % 2 ^ addrWidth s.cfg
    let hi (x : Addr) : Nat := (v.toNat * 2 ^ 32 + x.toNat % 2 ^ 32) % 2 ^ addrWidth s.cfg
    (s.host = .write 0x010 4 v :: rest →
      ∃ a : Addr, a.toNat = lo s.daddr ∧ step s = .next { s with host := rest, daddr := a }) ∧
    (s.host = .write 0x014 4 v :: rest →
      ∃ a : Addr, a.toNat = hi s.daddr ∧ step s = .next { s with host := rest, daddr := a }) ∧
    (s.host = .write 0x018 4 v :: rest →
      ∃ a : Addr, a.toNat = lo s.dlen ∧ step s = .next { s with host := rest, dlen := a }) ∧
    (s.host = .write 0x01C 4 v :: rest →
      ∃ a : Addr, a.toNat = hi s.dlen ∧ step s = .next { s with host := rest, dlen := a }) ∧
    (s.host = .write 0x020 4 v :: rest →
      ∃ a : Addr, a.toNat = lo s.saddr ∧ step s = .next { s with host := rest, saddr := a }) ∧
    (s.host = .write 0x024 4 v :: rest →
      ∃ a : Addr, a.toNat = hi s.saddr ∧ step s = .next { s with host := rest, saddr := a })

/-- R57: a write to a read-only register or a reserved slot is ignored, in every state. -/
def Obligations.ReadOnlySlotIgnoresWrite : Prop :=
  ∀ (s : State) (r : Reg) (v : Word) (rest : List HostStep),
    (r ∈ [.status, .faddrLo, .faddrHi, .offLo, .offHi, .remLo, .remHi, .bsz, .valid] ∨ (∃ i, r = .base i) ∨
      ∃ i, r = .reserved i) →
    s.host = .write r.offset 4 v :: rest → step s = .next { s with host := rest }

/-- R106 with the maps R31, R33 and R55: a read of any register, in any state in which no command runs, gives the host the number
the map gives and changes nothing else. -/
def Obligations.RegisterReadGivesMapValue : Prop :=
  ∀ (s : State) (r : Reg) (rest : List HostStep),
    s.busy = false → s.host = .read r.offset 4 :: rest →
    ∃ v : Word, v.toNat = mapValue s r ∧ step s = .next { s with host := rest, reads := s.reads ++ [v] }

/-- R56: an access that is not 32 bits wide, not at a multiple of 4 or not inside 0x000 to 0x0FC has no step. -/
def Obligations.NonRegisterAccessHasNoStep : Prop :=
  ∀ (s : State) (offset size : Nat) (v : Word) (rest : List HostStep),
    ¬(size = 4 ∧ offset % 4 = 0 ∧ offset < 0x100) →
    (s.host = .write offset size v :: rest → step s = .refused (.badBusAccess offset size)) ∧
    (s.host = .read offset size :: rest → step s = .refused (.badBusAccess offset size))

/-- R123, R125: with no host step pending the engine keeps all its state. -/
def Obligations.IdleEngineKeepsState : Prop :=
  ∀ s : State, s.host = [] → step s = .next s

/-- R36: every register and validity bit of the reset state is 0. -/
def Obligations.ResetStateIsZero : Prop :=
  let s := State.reset
  (∀ i : Fin 8, s.key[i] = 0) ∧ (∀ i : Fin 4, s.nonce[i] = 0) ∧ (∀ i : Fin 16, s.base[i] = 0) ∧ (∀ i : Fin 16, s.blk[i] = 0) ∧
  s.daddr = 0 ∧ s.saddr = 0 ∧ s.dlen = 0 ∧ s.off = 0 ∧ s.rem = 0 ∧ s.bsz = 0 ∧ s.kv = 0 ∧ s.nv = 0 ∧ s.seeded = false ∧
  s.blkv = 0 ∧ s.busy = false ∧ s.done = false ∧ s.fault = false ∧ s.cause = none ∧ s.faddr = 0 ∧ statusWord s = 0

/-- R36, R124: the reset input puts every register and validity bit to 0, also in a faulted engine, and leaves the parameters and
the data space. That reset is a host step, and that it keeps the script, the reads and the accesses, is the model's own deduction
(log entry 5). -/
def Obligations.ResetStepClearsRegisters : Prop :=
  ∀ (s : State) (rest : List HostStep), s.host = .reset :: rest →
    step s = .next { s with
      key := Vector.replicate 8 0, nonce := Vector.replicate 4 0, base := Vector.replicate 16 0, blk := Vector.replicate 16 0,
      daddr := 0, saddr := 0, dlen := 0, off := 0, rem := 0, bsz := 0, kv := 0, nv := 0, seeded := false, blkv := 0,
      busy := false, done := false, fault := false, cause := none, faddr := 0, host := rest }

/-! Rules of the whole machine. -/

/-- The invariants of the machine hold after reset (R29, R27, R31, R32, and the form of memory). -/
def Obligations.InvariantHoldsAtReset : Prop := State.reset.Inv

/-- Every step keeps the invariants: R29 (a), (b), (d) and the bound that follows from (c); the reserved bits of the `AW`-bit
registers; the status bits between commands; the data space canonical and inside `2^AW`. -/
def Obligations.EveryStepKeepsInvariant : Prop :=
  ∀ s t : State, s.Inv → step s = .next t → t.Inv

/-- R29 (c): only SEED and APPLY change `OFF + REM`, and they make it DLEN, whether they complete or fault later. -/
def Obligations.OffPlusRemIsSeedLength : Prop :=
  ∀ (i : Instr) (s t : State), s.Inv → exec i s = .next t →
    ((i = .seed ∨ i = .apply) ∧ s.ready ∧ s.kv = 0xFF ∧ s.nv = 0xF → t.off.toNat + t.rem.toNat = s.dlen.toNat) ∧
    (¬((i = .seed ∨ i = .apply) ∧ s.ready ∧ s.kv = 0xFF ∧ s.nv = 0xF) →
      t.off.toNat + t.rem.toNat = s.off.toNat + s.rem.toNat)

/-- R31, R134: a command given to a ready engine completes with STATUS 0x2, or faults with STATUS 0x4 and the code of one cause. -/
def Obligations.CommandCompletesOrFaults : Prop :=
  ∀ (i : Instr) (s : State), s.ready → s.cause = none →
    ∃ t, exec i s = .next t ∧
      ((t.fault = false ∧ t.cause = none ∧ statusWord t = 0x00000002) ∨
        ∃ c : Cause, t.fault = true ∧ t.cause = some c ∧
          statusWord t = 0x00000004 ||| ((causeCode c).setWidth 32 <<< 4))

/-- R115: nothing but reset changes a faulted engine; only the script and the values read go on. -/
def Obligations.OnlyResetLeavesFault : Prop :=
  ∀ s t : State, s.fault = true → s.host.head? ≠ some .reset → step s = .next t →
    t = { s with host := s.host.tail, reads := t.reads }

/-- R33: no command and no host access clears a validity bit; only reset does. -/
def Obligations.OnlyResetClearsValidity : Prop :=
  ∀ s t : State, s.host.head? ≠ some .reset → step s = .next t →
    (∀ j, s.kv.getLsbD j = true → t.kv.getLsbD j = true) ∧ (∀ j, s.nv.getLsbD j = true → t.nv.getLsbD j = true) ∧
    (s.seeded = true → t.seeded = true) ∧ (∀ j, s.blkv.getLsbD j = true → t.blkv.getLsbD j = true)

/-- R19, R20, R27, R18: no command, whether it completes or faults, writes KEY, NONCE, their validity bits, DADDR, SADDR, DLEN or
the parameters; nor does it touch what belongs to the host. -/
def Obligations.CommandsKeepHostRegisters : Prop :=
  ∀ (i : Instr) (s t : State), exec i s = .next t →
    t.key = s.key ∧ t.nonce = s.nonce ∧ t.kv = s.kv ∧ t.nv = s.nv ∧ t.daddr = s.daddr ∧ t.saddr = s.saddr ∧
    t.dlen = s.dlen ∧ t.cfg = s.cfg ∧ t.host = s.host ∧ t.reads = s.reads

/-- R22: BASE changes only by reset and by SEED, CTRINC, BLOCK and APPLY; its key and nonce words only by reset, SEED and APPLY. -/
def Obligations.OnlyDriverWritesBase : Prop :=
  ∀ s t : State, step s = .next t → ∀ j : Fin 16, t.base[j] ≠ s.base[j] →
    s.host.head? = some .reset ∨
    ∃ i : Instr, s.host.head? = some (.write 0x000 4 (encode i)) ∧
      (i = .seed ∨ i = .apply ∨ j.val < 4 ∧ (i = .ctrinc ∨ i = .block))

/-- R18: the parameters are the same for the whole life of the block. -/
def Obligations.ParametersNeverChange : Prop :=
  ∀ s t : State, step s = .next t → t.cfg = s.cfg

/-- R37: the commands other than XORB, XORM, BLOCK and APPLY make no access to the data space. -/
def Obligations.OtherCommandsTouchNoMemory : Prop :=
  ∀ (i : Instr) (s t : State), i ∈ [.nop, .seed, .bsize, .copy, .ctrinc, .mix, .fold, .adv] → exec i s = .next t →
    t.accesses = s.accesses ∧ ∀ a, Memory.read t.mem a = Memory.read s.mem a

/-- R95, R37: however XORB, XORM, BLOCK or APPLY ends, every byte outside its destination span is as it was. -/
def Obligations.StoresStayInDestination : Prop :=
  ∀ s t : State,
    (exec .xorb s = .next t → ∀ a, ¬(blockStart s ≤ a ∧ a < blockStart s + s.bsz.val) →
      Memory.read t.mem a = Memory.read s.mem a) ∧
    (exec .xorm s = .next t → ∀ a, ¬(s.daddr.toNat ≤ a ∧ a < s.daddr.toNat + s.dlen.toNat) →
      Memory.read t.mem a = Memory.read s.mem a) ∧
    (exec .block s = .next t → ∀ a, ¬(blockStart s ≤ a ∧ a < blockStart s + min 64 s.rem.toNat) →
      Memory.read t.mem a = Memory.read s.mem a) ∧
    (s.dlen.toNat < spaceSize s.cfg → exec .apply s = .next t →
      ∀ a, ¬(s.daddr.toNat ≤ a ∧ a < s.daddr.toNat + s.dlen.toNat) → Memory.read t.mem a = Memory.read s.mem a)

/-! The commands. -/

/-- R104: NOP, the word 0x0, completes and changes nothing but the status, and is ignored by a faulted engine. -/
def Obligations.NopCompletes : Prop :=
  decode 0x00000000 = .ok .nop ∧
  ∀ s : State, (s.ready → exec .nop s = .next (completed s)) ∧ (s.fault = true → exec .nop s = .next s)

/-- R76, R77, R110: SEED, the word 0x1, makes BASE the constants, the key and the nonce, and restarts the sequencer on DLEN;
without a whole key and nonce it raises NOTREADY and changes nothing. -/
def Obligations.SeedLoadsBase : Prop :=
  decode 0x00000001 = .ok .seed ∧
  ∀ s : State, s.ready →
    (s.kv = 0xFF ∧ s.nv = 0xF → ∃ b : Block,
      exec .seed s = .next (completed { s with base := b, seeded := true, off := 0, rem := s.dlen, bsz := 0 }) ∧
      (∀ i : Fin 4, b[i.val]'(by omega) = s.cfg.const[i]) ∧ (∀ i : Fin 8, b[4 + i.val]'(by omega) = s.key[i]) ∧
      ∀ i : Fin 4, b[12 + i.val]'(by omega) = s.nonce[i]) ∧
    (¬(s.kv = 0xFF ∧ s.nv = 0xF) → exec .seed s = .next (faulted s .notReady 0))

/-- R78: BSIZE, the word 0x2, makes BSZ the smaller of 64 and REM. -/
def Obligations.BsizeChoosesBlockSize : Prop :=
  decode 0x00000002 = .ok .bsize ∧
  ∀ s : State, s.ready → ∃ n : Fin 65, n.val = min 64 s.rem.toNat ∧ exec .bsize s = .next (completed { s with bsz := n })

/-- R79: COPY, the word 0x3, makes BLK the base state, every word of it valid; without a seeded BASE it raises NOTREADY. -/
def Obligations.CopyTakesBase : Prop :=
  decode 0x00000003 = .ok .copy ∧
  ∀ s : State, s.ready →
    (s.seeded = true → exec .copy s = .next (completed { s with blk := s.base, blkv := 0xFFFF })) ∧
    (s.seeded = false → exec .copy s = .next (faulted s .notReady 0))

/-- R80: CTRINC, the word 0x4, adds BSZ to each of the first four words of BASE, modulo 2^32 and with no carry between
them; without a seeded BASE it raises NOTREADY. -/
def Obligations.CtrincAdvancesCounter : Prop :=
  decode 0x00000004 = .ok .ctrinc ∧
  ∀ s : State, s.ready →
    (s.seeded = true → ∃ b : Block, exec .ctrinc s = .next (completed { s with base := b }) ∧
      ∀ i : Fin 16, b[i].toNat = if i.val < 4 then (s.base[i].toNat + s.bsz.val) % 2 ^ 32 else s.base[i].toNat) ∧
    (s.seeded = false → exec .ctrinc s = .next (faulted s .notReady 0))

/-- R71, R73: MIX makes each word `4j + l` of BLK the fourth iterate of one round on its old value, with the operands the snapshots
give; without a fully valid BLK it raises NOTREADY. -/
def Obligations.MixIteratesLaneRound : Prop :=
  ∀ s : State, s.ready →
    (s.blkv = 0xFFFF → ∃ b : Block, exec .mix s = .next (completed { s with blk := b }) ∧
      ∀ j l : Fin 4, b[laneIdx j l] =
        laneResult (snapshot s.blk (j + 1) l) ((snapshot s.blk (j + 3) (l + 1)).rotateRight (rotation j))
          (snapshot s.blk (j + 2) (l + 2)) s.blk[laneIdx j l]) ∧
    (s.blkv ≠ 0xFFFF → exec .mix s = .next (faulted s .notReady 0))

/-- R72: the three operands of each output word, as the table gives them. -/
def Obligations.MixOperandTable : Prop :=
  ∀ s : State, s.ready → s.blkv = 0xFFFF →
    let x := s.blk
    let f (n a b r c : Fin 32) (h : n.val < 16 ∧ a.val < 16 ∧ b.val < 16 ∧ c.val < 16) : Word :=
      laneResult (x[a.val]'h.2.1) ((x[b.val]'h.2.2.1).rotateRight r.val) (x[c.val]'h.2.2.2) (x[n.val]'h.1)
    exec .mix s = .next (completed { s with blk := #v[
      f 0 7 14 17 8 (by decide), f 1 5 13 17 10 (by decide), f 2 4 12 17 9 (by decide), f 3 6 15 17 11 (by decide),
      f 4 9 0 13 13 (by decide), f 5 11 3 13 12 (by decide), f 6 8 1 13 15 (by decide), f 7 10 2 13 14 (by decide),
      f 8 15 5 11 3 (by decide), f 9 14 4 11 1 (by decide), f 10 13 6 11 2 (by decide), f 11 12 7 11 0 (by decide),
      f 12 2 11 7 4 (by decide), f 13 0 8 7 6 (by decide), f 14 3 10 7 7 (by decide), f 15 1 9 7 5 (by decide)] })

/-- R94 (b): adding 2^31 to one word of the input moves that word of the result by 2^31 and leaves every other word alone but the
one that takes it rotated. -/
def Obligations.TopBitReachesOneOtherWord : Prop :=
  ∀ (x y : Block) (m : Fin 16), (∀ n : Fin 16, y[n] = if n = m then x[n] + 0x80000000#32 else x[n]) →
    ∀ j l : Fin 4,
      (laneIdx j l = m → (mix y)[laneIdx j l] = (mix x)[laneIdx j l] + 0x80000000#32) ∧
      (laneIdx j l ≠ m → laneIdx (j + 3) (shuffle (j + 3))[l + 1] ≠ m → (mix y)[laneIdx j l] = (mix x)[laneIdx j l])

/-- R82: FOLD, the word 0x6, adds BASE into BLK word by word, modulo 2^32; without a seeded BASE and a fully valid
BLK it raises NOTREADY. -/
def Obligations.FoldAddsBase : Prop :=
  decode 0x00000006 = .ok .fold ∧
  ∀ s : State, s.ready →
    (s.seeded = true ∧ s.blkv = 0xFFFF → ∃ b : Block, exec .fold s = .next (completed { s with blk := b }) ∧
      ∀ i : Fin 16, b[i].toNat = (s.blk[i].toNat + s.base[i].toNat) % 2 ^ 32) ∧
    (¬(s.seeded = true ∧ s.blkv = 0xFFFF) → exec .fold s = .next (faulted s .notReady 0))

/-- R83: ADV moves OFF forward and REM down by BSZ and clears BSZ; under the sequencer invariant neither wraps. -/
def Obligations.AdvMovesSequencer : Prop :=
  ∀ s : State, s.ready → s.sequencerInv →
    ∃ o r : Addr, o.toNat = s.off.toNat + s.bsz.val ∧ r.toNat = s.rem.toNat - s.bsz.val ∧
      exec .adv s = .next (completed { s with off := o, rem := r, bsz := 0 })

/-- R101, R42, R98: on a fully valid BLK, with the span in the space and admitted (or of size 0), XORB replaces each of the BSZ
bytes from `DADDR + OFF` on by itself XOR the byte of BLK, whatever VW is, and changes no other byte and no register. -/
def Obligations.XorbXorsBlockBytes : Prop :=
  ∀ s : State, s.ready → s.blkv = 0xFFFF →
    (s.bsz.val = 0 ∨ s.daddr.toNat + s.off.toNat + s.bsz.val ≤ 2 ^ addrWidth s.cfg ∧
      spanAdmitted s.cfg (s.daddr.toNat + s.off.toNat) s.bsz.val = true) →
    ∃ t, exec .xorb s = .next t ∧ t = completed { s with mem := t.mem, accesses := t.accesses } ∧
      (∀ k : Fin 64, k.val < s.bsz.val →
        Memory.read t.mem (s.daddr.toNat + s.off.toNat + k.val) =
          Memory.read s.mem (s.daddr.toNat + s.off.toNat + k.val) ^^^
            (s.blk[k.val / 4]'(by omega) >>> (8 * (k.val % 4))).setWidth 8) ∧
      ∀ a, ¬(s.daddr.toNat + s.off.toNat ≤ a ∧ a < s.daddr.toNat + s.off.toNat + s.bsz.val) →
        Memory.read t.mem a = Memory.read s.mem a

/-- R110, R101: XORB without a fully valid BLK raises NOTREADY and changes nothing, also when BSZ is 0. -/
def Obligations.XorbNeedsValidBlk : Prop :=
  ∀ s : State, s.ready → s.blkv ≠ 0xFFFF → exec .xorb s = .next (faulted s .notReady 0)

/-- R102, R95: on two spans in the space that do not overlap and are admitted (or of size 0), XORM replaces each of the DLEN bytes
at DADDR by itself XOR the byte at SADDR as it was, and changes no other byte, the source's among them, and no register. -/
def Obligations.XormXorsSpans : Prop :=
  ∀ s : State, s.ready →
    let d := s.daddr.toNat
    let a := s.saddr.toNat
    let n := s.dlen.toNat
    (n = 0 ∨ d + n ≤ 2 ^ addrWidth s.cfg ∧ a + n ≤ 2 ^ addrWidth s.cfg ∧ ¬(d < a + n ∧ a < d + n) ∧
      sourceAdmitted s.cfg a n = true ∧ spanAdmitted s.cfg d n = true) →
    ∃ t, exec .xorm s = .next t ∧ t = completed { s with mem := t.mem, accesses := t.accesses } ∧
      (∀ k, k < n → Memory.read t.mem (d + k) = Memory.read s.mem (d + k) ^^^ Memory.read s.mem (a + k)) ∧
      ∀ y, ¬(d ≤ y ∧ y < d + n) → Memory.read t.mem y = Memory.read s.mem y

/-- R84, R88: BLOCK on a seeded engine, with its span in the space and admitted, counts the block, makes BLK the keystream block
of the base state before it, XORs its bytes into the buffer and advances. -/
def Obligations.BlockProcessesOneBlock : Prop :=
  ∀ s : State, s.ready → s.sequencerInv → s.rem ≠ 0 →
    let n := min 64 s.rem.toNat
    let d := s.daddr.toNat + s.off.toNat
    d + n ≤ 2 ^ addrWidth s.cfg → spanAdmitted s.cfg d n = true →
    ∃ t, exec .block s = .next t ∧
      t = completed { s with base := t.base, blk := t.blk, blkv := 0xFFFF, off := t.off, rem := t.rem, bsz := 0,
                             mem := t.mem, accesses := t.accesses } ∧
      (∀ i : Fin 16, t.base[i].toNat = if i.val < 4 then (s.base[i].toNat + n) % 2 ^ 32 else s.base[i].toNat) ∧
      (∀ i : Fin 16, t.blk[i] = (mix s.base)[i] + t.base[i]) ∧
      t.off.toNat = s.off.toNat + n ∧ t.rem.toNat = s.rem.toNat - n ∧
      (∀ k : Fin 64, k.val < n →
        Memory.read t.mem (d + k.val) = Memory.read s.mem (d + k.val) ^^^ blkByte t.blk k) ∧
      ∀ a, ¬(d ≤ a ∧ a < d + n) → Memory.read t.mem a = Memory.read s.mem a

/-- R84, R87: from every state, faults and all, BLOCK with `REM ≠ 0` is the seven step commands one after another, and with
`REM = 0` it does what NOP does. -/
def Obligations.BlockIsItsSevenSteps : Prop :=
  ∀ s : State, exec .block s =
    if s.rem = 0 then exec .nop s
    else [Instr.bsize, .copy, .ctrinc, .mix, .fold, .xorb, .adv].foldl thenCommand (.next s)

/-- R85, R87: from every state, faults and all, APPLY is SEED and then BLOCK `ceil(DLEN / 64)` times. -/
def Obligations.ApplyIsSeedThenBlocks : Prop :=
  ∀ s : State,
    exec .apply s = (Instr.seed :: List.replicate ((s.dlen.toNat + 63) / 64) .block).foldl thenCommand (.next s)

/-- R85, R110: APPLY without a whole key and nonce raises NOTREADY, changes nothing and makes no access. -/
def Obligations.ApplyNeedsKeyAndNonce : Prop :=
  ∀ s : State, s.ready → ¬(s.kv = 0xFF ∧ s.nv = 0xF) → exec .apply s = .next (faulted s .notReady 0)

/-- R85, R86: APPLY on a buffer of length 0 is SEED: no access, DADDR not examined, BLK and BLKV as before. -/
def Obligations.ApplyOfNothingIsSeed : Prop :=
  ∀ s : State, s.ready → s.kv = 0xFF ∧ s.nv = 0xF → s.dlen = 0 → ∃ b : Block,
    exec .apply s = .next (completed { s with base := b, seeded := true, off := 0, rem := 0, bsz := 0 }) ∧
    exec .seed s = exec .apply s

/-- R86, R88: what a completed APPLY leaves. With a whole key and nonce, and every block in the space and admitted, APPLY
completes; the buffer is XORed with the keystream, no other byte changes, and the registers are as R86 lists them. -/
def Obligations.ApplyXorsKeystream : Prop :=
  ∀ s : State, s.ready → s.kv = 0xFF ∧ s.nv = 0xF → s.dlen.toNat < spaceSize s.cfg →
    blocksAdmitted s.cfg s.daddr.toNat s.dlen.toNat (blockCount s.dlen.toNat) →
    let n := s.dlen.toNat
    ∃ t, exec .apply s = .next t ∧
      t = completed { s with base := t.base, blk := t.blk, blkv := if n = 0 then s.blkv else 0xFFFF, seeded := true,
                             off := s.dlen, rem := 0, bsz := 0, mem := t.mem, accesses := t.accesses } ∧
      (∀ i : Fin 4, t.base[i.val]'(by omega) = s.cfg.const[i] + BitVec.ofNat 32 n) ∧
      (∀ i : Fin 8, t.base[4 + i.val]'(by omega) = s.key[i]) ∧
      (∀ i : Fin 4, t.base[12 + i.val]'(by omega) = s.nonce[i]) ∧
      t.blk = (if n = 0 then s.blk else keystreamBlock s.cfg.const s.key s.nonce n ((n - 1) / 64)) ∧
      (∀ k, k < n → Memory.read t.mem (s.daddr.toNat + k) =
        Memory.read s.mem (s.daddr.toNat + k) ^^^ keystreamByte s.cfg.const s.key s.nonce n k) ∧
      ∀ a, ¬(s.daddr.toNat ≤ a ∧ a < s.daddr.toNat + n) → Memory.read t.mem a = Memory.read s.mem a

/-! The schedule and the accesses. -/

/-- R97: the chunks of `Sched(size, VW)` are adjacent from 0 and cover the size; each is VW wide or a narrower power of two, never
wider than the one before; there are `floor(size / VW) + popcount(size mod VW)` of them. -/
def Obligations.ScheduleCoversSpan : Prop :=
  ∀ (size : Nat) (vw : VecWidth),
    (∀ k : Nat, (h : k < (sched size vw).length) → (sched size vw)[k].1 = (((sched size vw).take k).map Prod.snd).sum) ∧
    ((sched size vw).map Prod.snd).sum = size ∧
    (∀ ow ∈ sched size vw, ow.2 ∈ [64, 32, 16, 8, 4, 2, 1] ∧ ow.2 ≤ vwBytes vw) ∧
    ((sched size vw).map Prod.snd).Pairwise (fun v w => w ≤ v) ∧
    (sched size vw).length = size / vwBytes vw + ((List.range 6).filter fun j => (size % vwBytes vw).testBit j).length

/-- R49, R97: the accesses XORB and XORM make, in order, when they complete: chunks in ascending order, and in a chunk the source
read (XORM only), the destination read, the destination write. -/
def Obligations.AccessesFollowSchedule : Prop :=
  ∀ s t : State, s.ready → t.fault = false →
    (exec .xorb s = .next t → t.accesses = s.accesses ++ (sched s.bsz.val s.cfg.vw).flatMap fun ow =>
      [⟨.read, s.daddr.toNat + s.off.toNat + ow.1, ow.2⟩, ⟨.write, s.daddr.toNat + s.off.toNat + ow.1, ow.2⟩]) ∧
    (exec .xorm s = .next t → t.accesses = s.accesses ++ (sched s.dlen.toNat s.cfg.vw).flatMap fun ow =>
      [⟨.read, s.saddr.toNat + ow.1, ow.2⟩, ⟨.read, s.daddr.toNat + ow.1, ow.2⟩, ⟨.write, s.daddr.toNat + ow.1, ow.2⟩])

/-- R98: two engines that differ only in VW and in what their memories admitted leave the same bytes when both complete XORB, XORM or
APPLY. -/
def Obligations.WidthDoesNotChangeBytes : Prop :=
  ∀ (s : State) (vw : VecWidth) (ws : List Window) (i : Instr) (t u : State),
    i = .xorb ∨ i = .xorm ∨ i = .apply → s.ready → s.dlen.toNat < spaceSize s.cfg →
    exec i s = .next t → exec i { s with cfg := { s.cfg with vw := vw, windows := ws } } = .next u →
    t.fault = false → u.fault = false → ∀ a, Memory.read t.mem a = Memory.read u.mem a

/-! Faults of the datapath. -/

/-- R99: a span of non-zero size that runs past `2^AW` raises RANGE before any access, with the start of the destination span,
modulo `2^AW`, as the address; nothing else changes. -/
def Obligations.RangeFaultPrecedesAccesses : Prop :=
  ∀ s : State, s.ready →
    (s.blkv = 0xFFFF → s.bsz.val ≠ 0 → 2 ^ addrWidth s.cfg < s.daddr.toNat + s.off.toNat + s.bsz.val →
      ∃ a : Addr, a.toNat = (s.daddr.toNat + s.off.toNat) % 2 ^ addrWidth s.cfg ∧
        exec .xorb s = .next (faulted s .range a)) ∧
    (s.dlen.toNat ≠ 0 → (2 ^ addrWidth s.cfg < s.daddr.toNat + s.dlen.toNat ∨
        2 ^ addrWidth s.cfg < s.saddr.toNat + s.dlen.toNat) →
      ∃ a : Addr, a.toNat = s.daddr.toNat % 2 ^ addrWidth s.cfg ∧ exec .xorm s = .next (faulted s .range a))

/-- R100, R102, R112: XORM on two spans of non-zero size inside the space raises OVERLAP, before any access, exactly when they
overlap; equal starts do, spans of size 0 never do. -/
def Obligations.OverlapFaultIsExact : Prop :=
  ∀ s : State, s.ready → s.cause = none → s.daddr.toNat + s.dlen.toNat ≤ 2 ^ addrWidth s.cfg →
    s.saddr.toNat + s.dlen.toNat ≤ 2 ^ addrWidth s.cfg →
    ∃ t, exec .xorm s = .next t ∧
      (0 < s.dlen.toNat ∧ s.daddr.toNat < s.saddr.toNat + s.dlen.toNat ∧ s.saddr.toNat < s.daddr.toNat + s.dlen.toNat →
        ∃ a : Addr, a.toNat = s.daddr.toNat % 2 ^ addrWidth s.cfg ∧ t = faulted s .overlap a) ∧
      (¬(0 < s.dlen.toNat ∧ s.daddr.toNat < s.saddr.toNat + s.dlen.toNat ∧
        s.saddr.toNat < s.daddr.toNat + s.dlen.toNat) → t.cause = none ∨ t.cause = some .bus)

/-- R111 for XORB: when the chunks before one are admitted and its read or its write is not, BUS is raised with the chunk's start
address, the chunks before it are done, and the chunk itself and the later ones are not. -/
def Obligations.XorbBusFaultKeepsEarlierChunks : Prop :=
  ∀ (s : State) (pre post : List (Nat × Nat)) (o w : Nat), s.ready → s.blkv = 0xFFFF →
    let d := s.daddr.toNat + s.off.toNat
    d + s.bsz.val ≤ 2 ^ addrWidth s.cfg → sched s.bsz.val s.cfg.vw = pre ++ (o, w) :: post →
    (∀ ow ∈ pre, admitted s.cfg (d + ow.1) ow.2 .read = true ∧ admitted s.cfg (d + ow.1) ow.2 .write = true) →
    ¬(admitted s.cfg (d + o) w .read = true ∧ admitted s.cfg (d + o) w .write = true) →
    ∃ t a, exec .xorb s = .next t ∧ a.toNat = (d + o) % 2 ^ addrWidth s.cfg ∧
      t = faulted { s with mem := t.mem, accesses := t.accesses } .bus a ∧
      (∀ k : Fin 64, k.val < o → Memory.read t.mem (d + k.val) = Memory.read s.mem (d + k.val) ^^^ blkByte s.blk k) ∧
      ∀ y, ¬(d ≤ y ∧ y < d + o) → Memory.read t.mem y = Memory.read s.mem y

/-- R111 for XORM: as for XORB, with the source read first; the address is that of the access refused. -/
def Obligations.XormBusFaultKeepsEarlierChunks : Prop :=
  ∀ (s : State) (pre post : List (Nat × Nat)) (o w : Nat), s.ready →
    let d := s.daddr.toNat
    let b := s.saddr.toNat
    let n := s.dlen.toNat
    d + n ≤ 2 ^ addrWidth s.cfg → b + n ≤ 2 ^ addrWidth s.cfg → ¬(d < b + n ∧ b < d + n) →
    sched n s.cfg.vw = pre ++ (o, w) :: post →
    (∀ ow ∈ pre, admitted s.cfg (b + ow.1) ow.2 .read = true ∧ admitted s.cfg (d + ow.1) ow.2 .read = true ∧
      admitted s.cfg (d + ow.1) ow.2 .write = true) →
    ¬(admitted s.cfg (b + o) w .read = true ∧ admitted s.cfg (d + o) w .read = true ∧ admitted s.cfg (d + o) w .write = true) →
    ∃ t a, exec .xorm s = .next t ∧
      a.toNat = (if admitted s.cfg (b + o) w .read = true then d + o else b + o) % 2 ^ addrWidth s.cfg ∧
      t = faulted { s with mem := t.mem, accesses := t.accesses } .bus a ∧
      (∀ k, k < o → Memory.read t.mem (d + k) = Memory.read s.mem (d + k) ^^^ Memory.read s.mem (b + k)) ∧
      ∀ y, ¬(d ≤ y ∧ y < d + o) → Memory.read t.mem y = Memory.read s.mem y

/-- R87: when the XORB of block `b` of an APPLY faults, the blocks before it are done; OFF, REM, BSZ, BASE and BLK are those of
block `b` before its ADV. -/
def Obligations.ApplyFaultKeepsEarlierBlocks : Prop :=
  ∀ (s : State) (b : Nat), s.ready → s.kv = 0xFF ∧ s.nv = 0xF → s.dlen.toNat < spaceSize s.cfg →
    let n := s.dlen.toNat
    let m := sizeOfBlock n b
    64 * b < n → blocksAdmitted s.cfg s.daddr.toNat n b →
    ¬(inSpace s.cfg (s.daddr.toNat + 64 * b) m = true ∧ spanAdmitted s.cfg (s.daddr.toNat + 64 * b) m = true) →
    ∃ t, exec .apply s = .next t ∧ t.fault = true ∧ t.done = false ∧ (t.cause = some .range ∨ t.cause = some .bus) ∧
      t.seeded = true ∧ t.blkv = 0xFFFF ∧ t.off.toNat = 64 * b ∧ t.rem.toNat = n - 64 * b ∧ t.bsz.val = m ∧
      (∀ i : Fin 4, t.base[i.val]'(by omega) = s.cfg.const[i] + BitVec.ofNat 32 (64 * b + m)) ∧
      (∀ i : Fin 8, t.base[4 + i.val]'(by omega) = s.key[i]) ∧ (∀ i : Fin 4, t.base[12 + i.val]'(by omega) = s.nonce[i]) ∧
      t.blk = keystreamBlock s.cfg.const s.key s.nonce n b ∧
      (∀ k, k < 64 * b → Memory.read t.mem (s.daddr.toNat + k) =
        Memory.read s.mem (s.daddr.toNat + k) ^^^ keystreamByte s.cfg.const s.key s.nonce n k) ∧
      ∀ k, 64 * b ≤ k → k < n →
        Memory.read t.mem (s.daddr.toNat + k) = Memory.read s.mem (s.daddr.toNat + k) ∨
        Memory.read t.mem (s.daddr.toNat + k) =
          Memory.read s.mem (s.daddr.toNat + k) ^^^ keystreamByte s.cfg.const s.key s.nonce n k

/-! The driver as a whole. -/

/-- R92: a second APPLY with the same KEY, NONCE, DADDR and DLEN completes and restores every byte. -/
def Obligations.ApplyTwiceRestoresBuffer : Prop :=
  ∀ s t u : State, s.ready → s.dlen.toNat < spaceSize s.cfg → exec .apply s = .next t → t.final →
    exec .apply t = .next u → u.final ∧ ∀ a, Memory.read u.mem a = Memory.read s.mem a

/-- R91: two completed APPLYs with the same CONST, KEY and NONCE apply the same keystream bytes to every block that is full in
both, whatever the data, the addresses, the widths and the lengths. -/
def Obligations.FullBlocksShareKeystream : Prop :=
  ∀ s1 s2 t1 t2 : State, s1.cfg.const = s2.cfg.const → s1.key = s2.key → s1.nonce = s2.nonce → s1.ready → s2.ready →
    s1.dlen.toNat < spaceSize s1.cfg → s2.dlen.toNat < spaceSize s2.cfg →
    exec .apply s1 = .next t1 → exec .apply s2 = .next t2 → t1.final → t2.final →
    ∀ k, 64 * (k / 64 + 1) ≤ s1.dlen.toNat → 64 * (k / 64 + 1) ≤ s2.dlen.toNat →
      Memory.read t1.mem (s1.daddr.toNat + k) ^^^ Memory.read s1.mem (s1.daddr.toNat + k) =
        Memory.read t2.mem (s2.daddr.toNat + k) ^^^ Memory.read s2.mem (s2.daddr.toNat + k)

/-- R81: the counter words wrap, so in an invocation longer than 2^32 bytes the keystream of the full blocks repeats after 2^32
bytes; it is no fault. -/
def Obligations.KeystreamRepeatsAfterWrap : Prop :=
  ∀ s : State, s.ready → s.kv = 0xFF ∧ s.nv = 0xF → s.dlen.toNat < spaceSize s.cfg →
    blocksAdmitted s.cfg s.daddr.toNat s.dlen.toNat (blockCount s.dlen.toNat) →
    ∃ t, exec .apply s = .next t ∧ t.fault = false ∧
      ∀ k, 64 * ((k + 2 ^ 32) / 64 + 1) ≤ s.dlen.toNat →
        Memory.read t.mem (s.daddr.toNat + (k + 2 ^ 32)) ^^^ Memory.read s.mem (s.daddr.toNat + (k + 2 ^ 32)) =
          Memory.read t.mem (s.daddr.toNat + k) ^^^ Memory.read s.mem (s.daddr.toNat + k)

/-- R90: keystream words 4 to 15 of a block do not depend on its size; words 0 to 3 differ by the difference of the sizes. -/
def Obligations.BlockSizeEntersFirstWordsOnly : Prop :=
  ∀ s1 s2 t1 t2 : State, s1.ready → s2.ready → s1.sequencerInv → s2.sequencerInv → s1.rem ≠ 0 → s2.rem ≠ 0 →
    s1.base = s2.base → exec .block s1 = .next t1 → exec .block s2 = .next t2 →
    ∀ i : Fin 16, (4 ≤ i.val → t1.blk[i] = t2.blk[i]) ∧
      (i.val < 4 → t1.blk[i] + BitVec.ofNat 32 (min 64 s2.rem.toNat) = t2.blk[i] + BitVec.ofNat 32 (min 64 s1.rem.toNat))

/-! The parameters. -/

/-- R7, R8: a build's `VW` is 64, 32, 16 or 8 bytes and its `AW` lies from 7 to 64; every such pair is a build, whatever the
constants and the admission; and a build that names neither, the one at `State.reset` among them, has `VW = 64` and `AW = 64`. -/
def Obligations.ParametersRangeAndDefault : Prop :=
  (∀ c : Config, vwBytes c.vw ∈ [64, 32, 16, 8] ∧ 7 ≤ addrWidth c ∧ addrWidth c ≤ 64) ∧
  (∀ (words : Vector Word 4) (ws : List Window), ∀ v ∈ [64, 32, 16, 8], ∀ n, 7 ≤ n ∧ n ≤ 64 →
    ∃ c : Config, c.const = words ∧ c.windows = ws ∧ vwBytes c.vw = v ∧ addrWidth c = n) ∧
  (∀ (words : Vector Word 4) (ws : List Window),
    vwBytes ({ const := words, windows := ws } : Config).vw = 64 ∧ addrWidth { const := words, windows := ws } = 64) ∧
  vwBytes State.reset.cfg.vw = 64 ∧ addrWidth State.reset.cfg = 64
end

