-- ==== Sys2Proof/Laws/Sched.lean ====
section
/-! SUPPORT. The chunk schedule (R97): its chunks are adjacent, cover the span, and have the widths of the datapath. -/

namespace Sys2Proof.Machine

/-- The chunks lie one after another from `o` on. -/
def Contiguous : Nat → List (Nat × Nat) → Prop
  | _, [] => True
  | o, (a, w) :: cs => a = o ∧ Contiguous (o + w) cs

/-- The number of bytes the chunks cover. -/
def covered : List (Nat × Nat) → Nat
  | [] => 0
  | (_, w) :: cs => w + covered cs

/-- The powers of two below `2^j`, the widest first. -/
def widthsBelow : Nat → List Nat
  | 0 => []
  | j + 1 => 2 ^ j :: widthsBelow j

theorem narrower_eq (vw : VecWidth) : ∃ j, narrower vw = widthsBelow j ∧ vwBytes vw = 2 ^ j := by
  cases vw
  · exact ⟨6, by decide, by decide⟩
  · exact ⟨5, by decide, by decide⟩
  · exact ⟨4, by decide, by decide⟩
  · exact ⟨3, by decide, by decide⟩

theorem vwBytes_pos (vw : VecWidth) : 0 < vwBytes vw := by cases vw <;> decide

/-- The bit of width `2^j` in a remainder below `2^(j+1)` is set if and only if `2^j` bytes remain. -/
theorem and_two_pow_ne_zero {r j : Nat} (h : r < 2 ^ (j + 1)) : r &&& 2 ^ j ≠ 0 ↔ 2 ^ j ≤ r := by
  rw [Nat.and_two_pow]
  have hj : 0 < 2 ^ j := Nat.two_pow_pos j
  have hb : r.testBit j = decide (2 ^ j ≤ r) := by
    rw [Nat.testBit_eq_decide_div_mod_eq]
    by_cases hr : 2 ^ j ≤ r
    · have : r / 2 ^ j = 1 := by
        apply Nat.div_eq_of_lt_le
        · omega
        · rw [pow_succ] at h; omega
      simp [this, hr]
    · simp [Nat.div_eq_of_lt (Nat.lt_of_not_le hr), hr]
  rw [hb]
  by_cases hr : 2 ^ j ≤ r <;> simp [hr]

theorem schedTail_spec (size : Nat) : ∀ j off, off ≤ size → size - off < 2 ^ j →
    Contiguous off (schedTail size (widthsBelow j) off) ∧ off + covered (schedTail size (widthsBelow j) off) = size
  | 0, off, _, h1 => by simp [widthsBelow, schedTail, Contiguous, covered] at h1 ⊢; omega
  | j + 1, off, h0, h1 => by
    simp only [widthsBelow, schedTail]
    split
    · rename_i hb
      rw [and_two_pow_ne_zero h1] at hb
      have ih := schedTail_spec size j (off + 2 ^ j) (by omega) (by rw [pow_succ] at h1; omega)
      exact ⟨⟨rfl, ih.1⟩, by simp only [covered]; omega⟩
    · rename_i hb
      rw [and_two_pow_ne_zero h1] at hb
      exact schedTail_spec size j off h0 (by omega)

theorem contiguous_append : ∀ {o : Nat} {cs ds : List (Nat × Nat)}, Contiguous o cs → Contiguous (o + covered cs) ds →
    Contiguous o (cs ++ ds)
  | _, [], _, _, h => by simpa [covered] using h
  | o, (a, w) :: cs, ds, hc, h => by
    refine ⟨hc.1, contiguous_append hc.2 ?_⟩
    simpa [covered, Nat.add_assoc] using h

theorem covered_append : ∀ (cs ds : List (Nat × Nat)), covered (cs ++ ds) = covered cs + covered ds
  | [], ds => by simp [covered]
  | (a, w) :: cs, ds => by simp [covered, covered_append cs ds, Nat.add_assoc]

theorem schedWide_spec (v : Nat) : ∀ n off, Contiguous off (schedWide v n off) ∧ covered (schedWide v n off) = v * n
  | 0, _ => by simp [schedWide, Contiguous, covered]
  | n + 1, off => by
    have ih := schedWide_spec v n (off + v)
    exact ⟨⟨rfl, ih.1⟩, by rw [schedWide, covered, ih.2, Nat.mul_succ, Nat.add_comm]⟩

/-- The chunks are adjacent, begin at 0, and cover exactly the span (R97). -/
theorem sched_spec (size : Nat) (vw : VecWidth) : Contiguous 0 (sched size vw) ∧ covered (sched size vw) = size := by
  obtain ⟨j, hn, hv⟩ := narrower_eq vw
  have hw := schedWide_spec (vwBytes vw) (size / vwBytes vw) 0
  have hle : vwBytes vw * (size / vwBytes vw) ≤ size := Nat.mul_div_le _ _
  have hlt : size - vwBytes vw * (size / vwBytes vw) < 2 ^ j := by
    rw [← hv]
    have := Nat.mod_lt size (vwBytes_pos vw)
    have := Nat.div_add_mod size (vwBytes vw)
    omega
  have ht := schedTail_spec size j _ hle hlt
  rw [← hn] at ht
  refine ⟨contiguous_append hw.1 ?_, ?_⟩
  · rw [hw.2, Nat.zero_add]; exact ht.1
  · rw [sched, covered_append, hw.2]; exact ht.2

/-- A span of size 0 has no chunk (D32). -/
theorem sched_zero (vw : VecWidth) : sched 0 vw = [] := by cases vw <;> decide

/-- The schedule is the schedule of the chunks before a chunk, the chunk at what they cover, and the rest. -/
theorem contiguous_split : ∀ {o : Nat} {pre : List (Nat × Nat)} {a w : Nat} {post : List (Nat × Nat)},
    Contiguous o (pre ++ (a, w) :: post) → Contiguous o pre ∧ a = o + covered pre ∧ Contiguous (a + w) post
  | o, [], a, w, post, h => ⟨trivial, by simpa [covered] using h.1, by rw [h.1]; exact h.2⟩
  | o, (b, v) :: pre, a, w, post, h => by
    have ih := contiguous_split h.2
    exact ⟨⟨h.1, ih.1⟩, by simp only [covered]; omega, ih.2.2⟩

/-- Every chunk of a contiguous list lies in what the list covers. -/
theorem contiguous_mem : ∀ {o : Nat} {cs : List (Nat × Nat)}, Contiguous o cs → ∀ {a w : Nat}, (a, w) ∈ cs →
    o ≤ a ∧ a + w ≤ o + covered cs
  | _, [], _, _, _, h => by simp at h
  | o, (b, v) :: cs, hc, a, w, h => by
    rcases List.mem_cons.mp h with h | h
    · obtain ⟨rfl, rfl⟩ := Prod.mk.injEq .. ▸ h
      simp only [covered]
      have := hc.1
      omega
    · have := contiguous_mem hc.2 h
      simp only [covered]
      omega

theorem schedTail_widths (size : Nat) : ∀ ws off, ∀ ow ∈ schedTail size ws off, ow.2 ∈ ws
  | [], _, _, h => by simp [schedTail] at h
  | w :: ws, off, ow, h => by
    simp only [schedTail] at h
    split at h
    · rcases List.mem_cons.mp h with h | h
      · simp [h]
      · exact List.mem_cons_of_mem _ (schedTail_widths size ws _ ow h)
    · exact List.mem_cons_of_mem _ (schedTail_widths size ws _ ow h)

theorem schedWide_widths (v : Nat) : ∀ n off, ∀ ow ∈ schedWide v n off, ow.2 = v
  | 0, _, _, h => by simp [schedWide] at h
  | n + 1, off, ow, h => by
    rcases List.mem_cons.mp h with h | h
    · simp [h]
    · exact schedWide_widths v n _ ow h

/-- A chunk is `VW` wide or of a narrower width (R46). -/
theorem sched_widths (size : Nat) (vw : VecWidth) : ∀ ow ∈ sched size vw, ow.2 = vwBytes vw ∨ ow.2 ∈ narrower vw := by
  intro ow h
  rcases List.mem_append.mp h with h | h
  · exact .inl (schedWide_widths _ _ _ ow h)
  · exact .inr (schedTail_widths size _ _ ow h)

end Sys2Proof.Machine
end

