-- ==== Sys2Proof/Laws/Admit.lean ====
section
/-! SUPPORT. A platform that admits everything in a window admits every span in it (R39, R46). -/

namespace Sys2Proof.Machine

/-- A window for every access of any width to the addresses below `n`. -/
def openWindow (n : Nat) : Window := ⟨0, n, [64, 32, 16, 8, 4, 2, 1], true, true⟩

/-- A span inside an open window is admitted, whatever `VW` is. -/
theorem spanAdmitted_open {c : Config} {n start size : Nat} (h : openWindow n ∈ c.windows) (hin : start + size ≤ n) :
    spanAdmitted c start size = true := by
  simp only [spanAdmitted, List.all_eq_true]
  intro ow hm
  have hs := sched_spec size c.vw
  have hlt := contiguous_mem hs.1 hm
  rw [hs.2] at hlt
  have hw : [64, 32, 16, 8, 4, 2, 1].contains ow.2 = true := by
    rcases sched_widths size c.vw ow hm with hw | hw
    · rw [hw]; cases c.vw <;> decide
    · revert hw
      generalize ow.2 = w
      cases c.vw <;> simp [narrower] <;> omega
  have key : ∀ k, admitted c (start + ow.1) ow.2 k = true := by
    intro k
    rw [admitted, List.any_eq_true]
    refine ⟨_, h, ?_⟩
    simp only [Window.admits, openWindow, hw]
    cases k <;> simp <;> omega
  rw [key, key]
  rfl

end Sys2Proof.Machine
end

