-- ==== Sys2Proof/Laws/State.lean ====
section
/-! SUPPORT. What each named update of the state does to each field, one lemma per field. -/

namespace Sys2Proof.Machine

/-! The build at reset: the default widths (R7, R8). -/

@[simp] theorem build_vw : Config.build.vw = .w64 := rfl
@[simp] theorem build_addrWidth : addrWidth Config.build = 64 := rfl
@[simp] theorem reset_cfg : State.reset.cfg = Config.build := rfl

/-! `startCommand`. -/

@[simp] theorem startCommand_key (s : State) : (startCommand s).key = s.key := rfl
@[simp] theorem startCommand_nonce (s : State) : (startCommand s).nonce = s.nonce := rfl
@[simp] theorem startCommand_base (s : State) : (startCommand s).base = s.base := rfl
@[simp] theorem startCommand_blk (s : State) : (startCommand s).blk = s.blk := rfl
@[simp] theorem startCommand_daddr (s : State) : (startCommand s).daddr = s.daddr := rfl
@[simp] theorem startCommand_saddr (s : State) : (startCommand s).saddr = s.saddr := rfl
@[simp] theorem startCommand_dlen (s : State) : (startCommand s).dlen = s.dlen := rfl
@[simp] theorem startCommand_off (s : State) : (startCommand s).off = s.off := rfl
@[simp] theorem startCommand_rem (s : State) : (startCommand s).rem = s.rem := rfl
@[simp] theorem startCommand_bsz (s : State) : (startCommand s).bsz = s.bsz := rfl
@[simp] theorem startCommand_kv (s : State) : (startCommand s).kv = s.kv := rfl
@[simp] theorem startCommand_nv (s : State) : (startCommand s).nv = s.nv := rfl
@[simp] theorem startCommand_seeded (s : State) : (startCommand s).seeded = s.seeded := rfl
@[simp] theorem startCommand_blkv (s : State) : (startCommand s).blkv = s.blkv := rfl
@[simp] theorem startCommand_busy (s : State) : (startCommand s).busy = true := rfl
@[simp] theorem startCommand_done (s : State) : (startCommand s).done = false := rfl
@[simp] theorem startCommand_fault (s : State) : (startCommand s).fault = s.fault := rfl
@[simp] theorem startCommand_cause (s : State) : (startCommand s).cause = s.cause := rfl
@[simp] theorem startCommand_faddr (s : State) : (startCommand s).faddr = s.faddr := rfl
@[simp] theorem startCommand_mem (s : State) : (startCommand s).mem = s.mem := rfl
@[simp] theorem startCommand_cfg (s : State) : (startCommand s).cfg = s.cfg := rfl
@[simp] theorem startCommand_host (s : State) : (startCommand s).host = s.host := rfl
@[simp] theorem startCommand_reads (s : State) : (startCommand s).reads = s.reads := rfl
@[simp] theorem startCommand_accesses (s : State) : (startCommand s).accesses = s.accesses := rfl

/-! `completeCommand`. -/

@[simp] theorem completeCommand_key (s : State) : (completeCommand s).key = s.key := rfl
@[simp] theorem completeCommand_nonce (s : State) : (completeCommand s).nonce = s.nonce := rfl
@[simp] theorem completeCommand_base (s : State) : (completeCommand s).base = s.base := rfl
@[simp] theorem completeCommand_blk (s : State) : (completeCommand s).blk = s.blk := rfl
@[simp] theorem completeCommand_daddr (s : State) : (completeCommand s).daddr = s.daddr := rfl
@[simp] theorem completeCommand_saddr (s : State) : (completeCommand s).saddr = s.saddr := rfl
@[simp] theorem completeCommand_dlen (s : State) : (completeCommand s).dlen = s.dlen := rfl
@[simp] theorem completeCommand_off (s : State) : (completeCommand s).off = s.off := rfl
@[simp] theorem completeCommand_rem (s : State) : (completeCommand s).rem = s.rem := rfl
@[simp] theorem completeCommand_bsz (s : State) : (completeCommand s).bsz = s.bsz := rfl
@[simp] theorem completeCommand_kv (s : State) : (completeCommand s).kv = s.kv := rfl
@[simp] theorem completeCommand_nv (s : State) : (completeCommand s).nv = s.nv := rfl
@[simp] theorem completeCommand_seeded (s : State) : (completeCommand s).seeded = s.seeded := rfl
@[simp] theorem completeCommand_blkv (s : State) : (completeCommand s).blkv = s.blkv := rfl
@[simp] theorem completeCommand_busy (s : State) : (completeCommand s).busy = false := rfl
@[simp] theorem completeCommand_done (s : State) : (completeCommand s).done = true := rfl
@[simp] theorem completeCommand_fault (s : State) : (completeCommand s).fault = s.fault := rfl
@[simp] theorem completeCommand_cause (s : State) : (completeCommand s).cause = s.cause := rfl
@[simp] theorem completeCommand_faddr (s : State) : (completeCommand s).faddr = s.faddr := rfl
@[simp] theorem completeCommand_mem (s : State) : (completeCommand s).mem = s.mem := rfl
@[simp] theorem completeCommand_cfg (s : State) : (completeCommand s).cfg = s.cfg := rfl
@[simp] theorem completeCommand_host (s : State) : (completeCommand s).host = s.host := rfl
@[simp] theorem completeCommand_reads (s : State) : (completeCommand s).reads = s.reads := rfl
@[simp] theorem completeCommand_accesses (s : State) : (completeCommand s).accesses = s.accesses := rfl

/-! `enterFault`. -/

@[simp] theorem enterFault_key (s : State) (c : Cause) (n : Nat) : (enterFault s c n).key = s.key := rfl
@[simp] theorem enterFault_nonce (s : State) (c : Cause) (n : Nat) : (enterFault s c n).nonce = s.nonce := rfl
@[simp] theorem enterFault_base (s : State) (c : Cause) (n : Nat) : (enterFault s c n).base = s.base := rfl
@[simp] theorem enterFault_blk (s : State) (c : Cause) (n : Nat) : (enterFault s c n).blk = s.blk := rfl
@[simp] theorem enterFault_daddr (s : State) (c : Cause) (n : Nat) : (enterFault s c n).daddr = s.daddr := rfl
@[simp] theorem enterFault_saddr (s : State) (c : Cause) (n : Nat) : (enterFault s c n).saddr = s.saddr := rfl
@[simp] theorem enterFault_dlen (s : State) (c : Cause) (n : Nat) : (enterFault s c n).dlen = s.dlen := rfl
@[simp] theorem enterFault_off (s : State) (c : Cause) (n : Nat) : (enterFault s c n).off = s.off := rfl
@[simp] theorem enterFault_rem (s : State) (c : Cause) (n : Nat) : (enterFault s c n).rem = s.rem := rfl
@[simp] theorem enterFault_bsz (s : State) (c : Cause) (n : Nat) : (enterFault s c n).bsz = s.bsz := rfl
@[simp] theorem enterFault_kv (s : State) (c : Cause) (n : Nat) : (enterFault s c n).kv = s.kv := rfl
@[simp] theorem enterFault_nv (s : State) (c : Cause) (n : Nat) : (enterFault s c n).nv = s.nv := rfl
@[simp] theorem enterFault_seeded (s : State) (c : Cause) (n : Nat) : (enterFault s c n).seeded = s.seeded := rfl
@[simp] theorem enterFault_blkv (s : State) (c : Cause) (n : Nat) : (enterFault s c n).blkv = s.blkv := rfl
@[simp] theorem enterFault_busy (s : State) (c : Cause) (n : Nat) : (enterFault s c n).busy = false := rfl
@[simp] theorem enterFault_done (s : State) (c : Cause) (n : Nat) : (enterFault s c n).done = s.done := rfl
@[simp] theorem enterFault_fault (s : State) (c : Cause) (n : Nat) : (enterFault s c n).fault = true := rfl
@[simp] theorem enterFault_cause (s : State) (c : Cause) (n : Nat) : (enterFault s c n).cause = some c := rfl
@[simp] theorem enterFault_faddr (s : State) (c : Cause) (n : Nat) : (enterFault s c n).faddr = narrow s.cfg n := rfl
@[simp] theorem enterFault_mem (s : State) (c : Cause) (n : Nat) : (enterFault s c n).mem = s.mem := rfl
@[simp] theorem enterFault_cfg (s : State) (c : Cause) (n : Nat) : (enterFault s c n).cfg = s.cfg := rfl
@[simp] theorem enterFault_host (s : State) (c : Cause) (n : Nat) : (enterFault s c n).host = s.host := rfl
@[simp] theorem enterFault_reads (s : State) (c : Cause) (n : Nat) : (enterFault s c n).reads = s.reads := rfl
@[simp] theorem enterFault_accesses (s : State) (c : Cause) (n : Nat) : (enterFault s c n).accesses = s.accesses := rfl

/-! `logAccess`. -/

@[simp] theorem logAccess_key (s : State) (k : AccessKind) (a n : Nat) : (logAccess s k a n).key = s.key := rfl
@[simp] theorem logAccess_nonce (s : State) (k : AccessKind) (a n : Nat) : (logAccess s k a n).nonce = s.nonce := rfl
@[simp] theorem logAccess_base (s : State) (k : AccessKind) (a n : Nat) : (logAccess s k a n).base = s.base := rfl
@[simp] theorem logAccess_blk (s : State) (k : AccessKind) (a n : Nat) : (logAccess s k a n).blk = s.blk := rfl
@[simp] theorem logAccess_daddr (s : State) (k : AccessKind) (a n : Nat) : (logAccess s k a n).daddr = s.daddr := rfl
@[simp] theorem logAccess_saddr (s : State) (k : AccessKind) (a n : Nat) : (logAccess s k a n).saddr = s.saddr := rfl
@[simp] theorem logAccess_dlen (s : State) (k : AccessKind) (a n : Nat) : (logAccess s k a n).dlen = s.dlen := rfl
@[simp] theorem logAccess_off (s : State) (k : AccessKind) (a n : Nat) : (logAccess s k a n).off = s.off := rfl
@[simp] theorem logAccess_rem (s : State) (k : AccessKind) (a n : Nat) : (logAccess s k a n).rem = s.rem := rfl
@[simp] theorem logAccess_bsz (s : State) (k : AccessKind) (a n : Nat) : (logAccess s k a n).bsz = s.bsz := rfl
@[simp] theorem logAccess_kv (s : State) (k : AccessKind) (a n : Nat) : (logAccess s k a n).kv = s.kv := rfl
@[simp] theorem logAccess_nv (s : State) (k : AccessKind) (a n : Nat) : (logAccess s k a n).nv = s.nv := rfl
@[simp] theorem logAccess_seeded (s : State) (k : AccessKind) (a n : Nat) : (logAccess s k a n).seeded = s.seeded := rfl
@[simp] theorem logAccess_blkv (s : State) (k : AccessKind) (a n : Nat) : (logAccess s k a n).blkv = s.blkv := rfl
@[simp] theorem logAccess_busy (s : State) (k : AccessKind) (a n : Nat) : (logAccess s k a n).busy = s.busy := rfl
@[simp] theorem logAccess_done (s : State) (k : AccessKind) (a n : Nat) : (logAccess s k a n).done = s.done := rfl
@[simp] theorem logAccess_fault (s : State) (k : AccessKind) (a n : Nat) : (logAccess s k a n).fault = s.fault := rfl
@[simp] theorem logAccess_cause (s : State) (k : AccessKind) (a n : Nat) : (logAccess s k a n).cause = s.cause := rfl
@[simp] theorem logAccess_faddr (s : State) (k : AccessKind) (a n : Nat) : (logAccess s k a n).faddr = s.faddr := rfl
@[simp] theorem logAccess_mem (s : State) (k : AccessKind) (a n : Nat) : (logAccess s k a n).mem = s.mem := rfl
@[simp] theorem logAccess_cfg (s : State) (k : AccessKind) (a n : Nat) : (logAccess s k a n).cfg = s.cfg := rfl
@[simp] theorem logAccess_host (s : State) (k : AccessKind) (a n : Nat) : (logAccess s k a n).host = s.host := rfl
@[simp] theorem logAccess_reads (s : State) (k : AccessKind) (a n : Nat) : (logAccess s k a n).reads = s.reads := rfl
@[simp] theorem logAccess_accesses (s : State) (k : AccessKind) (a n : Nat) : (logAccess s k a n).accesses = s.accesses ++ [⟨k, a, n⟩] := rfl

/-! `withBlk`. -/

@[simp] theorem withBlk_key (s : State) (b : Block) : (withBlk s b).key = s.key := rfl
@[simp] theorem withBlk_nonce (s : State) (b : Block) : (withBlk s b).nonce = s.nonce := rfl
@[simp] theorem withBlk_base (s : State) (b : Block) : (withBlk s b).base = s.base := rfl
@[simp] theorem withBlk_blk (s : State) (b : Block) : (withBlk s b).blk = b := rfl
@[simp] theorem withBlk_daddr (s : State) (b : Block) : (withBlk s b).daddr = s.daddr := rfl
@[simp] theorem withBlk_saddr (s : State) (b : Block) : (withBlk s b).saddr = s.saddr := rfl
@[simp] theorem withBlk_dlen (s : State) (b : Block) : (withBlk s b).dlen = s.dlen := rfl
@[simp] theorem withBlk_off (s : State) (b : Block) : (withBlk s b).off = s.off := rfl
@[simp] theorem withBlk_rem (s : State) (b : Block) : (withBlk s b).rem = s.rem := rfl
@[simp] theorem withBlk_bsz (s : State) (b : Block) : (withBlk s b).bsz = s.bsz := rfl
@[simp] theorem withBlk_kv (s : State) (b : Block) : (withBlk s b).kv = s.kv := rfl
@[simp] theorem withBlk_nv (s : State) (b : Block) : (withBlk s b).nv = s.nv := rfl
@[simp] theorem withBlk_seeded (s : State) (b : Block) : (withBlk s b).seeded = s.seeded := rfl
@[simp] theorem withBlk_blkv (s : State) (b : Block) : (withBlk s b).blkv = s.blkv := rfl
@[simp] theorem withBlk_busy (s : State) (b : Block) : (withBlk s b).busy = s.busy := rfl
@[simp] theorem withBlk_done (s : State) (b : Block) : (withBlk s b).done = s.done := rfl
@[simp] theorem withBlk_fault (s : State) (b : Block) : (withBlk s b).fault = s.fault := rfl
@[simp] theorem withBlk_cause (s : State) (b : Block) : (withBlk s b).cause = s.cause := rfl
@[simp] theorem withBlk_faddr (s : State) (b : Block) : (withBlk s b).faddr = s.faddr := rfl
@[simp] theorem withBlk_mem (s : State) (b : Block) : (withBlk s b).mem = s.mem := rfl
@[simp] theorem withBlk_cfg (s : State) (b : Block) : (withBlk s b).cfg = s.cfg := rfl
@[simp] theorem withBlk_host (s : State) (b : Block) : (withBlk s b).host = s.host := rfl
@[simp] theorem withBlk_reads (s : State) (b : Block) : (withBlk s b).reads = s.reads := rfl
@[simp] theorem withBlk_accesses (s : State) (b : Block) : (withBlk s b).accesses = s.accesses := rfl

/-! `withBlkv`. -/

@[simp] theorem withBlkv_key (s : State) (v : BitVec 16) : (withBlkv s v).key = s.key := rfl
@[simp] theorem withBlkv_nonce (s : State) (v : BitVec 16) : (withBlkv s v).nonce = s.nonce := rfl
@[simp] theorem withBlkv_base (s : State) (v : BitVec 16) : (withBlkv s v).base = s.base := rfl
@[simp] theorem withBlkv_blk (s : State) (v : BitVec 16) : (withBlkv s v).blk = s.blk := rfl
@[simp] theorem withBlkv_daddr (s : State) (v : BitVec 16) : (withBlkv s v).daddr = s.daddr := rfl
@[simp] theorem withBlkv_saddr (s : State) (v : BitVec 16) : (withBlkv s v).saddr = s.saddr := rfl
@[simp] theorem withBlkv_dlen (s : State) (v : BitVec 16) : (withBlkv s v).dlen = s.dlen := rfl
@[simp] theorem withBlkv_off (s : State) (v : BitVec 16) : (withBlkv s v).off = s.off := rfl
@[simp] theorem withBlkv_rem (s : State) (v : BitVec 16) : (withBlkv s v).rem = s.rem := rfl
@[simp] theorem withBlkv_bsz (s : State) (v : BitVec 16) : (withBlkv s v).bsz = s.bsz := rfl
@[simp] theorem withBlkv_kv (s : State) (v : BitVec 16) : (withBlkv s v).kv = s.kv := rfl
@[simp] theorem withBlkv_nv (s : State) (v : BitVec 16) : (withBlkv s v).nv = s.nv := rfl
@[simp] theorem withBlkv_seeded (s : State) (v : BitVec 16) : (withBlkv s v).seeded = s.seeded := rfl
@[simp] theorem withBlkv_blkv (s : State) (v : BitVec 16) : (withBlkv s v).blkv = v := rfl
@[simp] theorem withBlkv_busy (s : State) (v : BitVec 16) : (withBlkv s v).busy = s.busy := rfl
@[simp] theorem withBlkv_done (s : State) (v : BitVec 16) : (withBlkv s v).done = s.done := rfl
@[simp] theorem withBlkv_fault (s : State) (v : BitVec 16) : (withBlkv s v).fault = s.fault := rfl
@[simp] theorem withBlkv_cause (s : State) (v : BitVec 16) : (withBlkv s v).cause = s.cause := rfl
@[simp] theorem withBlkv_faddr (s : State) (v : BitVec 16) : (withBlkv s v).faddr = s.faddr := rfl
@[simp] theorem withBlkv_mem (s : State) (v : BitVec 16) : (withBlkv s v).mem = s.mem := rfl
@[simp] theorem withBlkv_cfg (s : State) (v : BitVec 16) : (withBlkv s v).cfg = s.cfg := rfl
@[simp] theorem withBlkv_host (s : State) (v : BitVec 16) : (withBlkv s v).host = s.host := rfl
@[simp] theorem withBlkv_reads (s : State) (v : BitVec 16) : (withBlkv s v).reads = s.reads := rfl
@[simp] theorem withBlkv_accesses (s : State) (v : BitVec 16) : (withBlkv s v).accesses = s.accesses := rfl

/-! `withBase`. -/

@[simp] theorem withBase_key (s : State) (b : Block) : (withBase s b).key = s.key := rfl
@[simp] theorem withBase_nonce (s : State) (b : Block) : (withBase s b).nonce = s.nonce := rfl
@[simp] theorem withBase_base (s : State) (b : Block) : (withBase s b).base = b := rfl
@[simp] theorem withBase_blk (s : State) (b : Block) : (withBase s b).blk = s.blk := rfl
@[simp] theorem withBase_daddr (s : State) (b : Block) : (withBase s b).daddr = s.daddr := rfl
@[simp] theorem withBase_saddr (s : State) (b : Block) : (withBase s b).saddr = s.saddr := rfl
@[simp] theorem withBase_dlen (s : State) (b : Block) : (withBase s b).dlen = s.dlen := rfl
@[simp] theorem withBase_off (s : State) (b : Block) : (withBase s b).off = s.off := rfl
@[simp] theorem withBase_rem (s : State) (b : Block) : (withBase s b).rem = s.rem := rfl
@[simp] theorem withBase_bsz (s : State) (b : Block) : (withBase s b).bsz = s.bsz := rfl
@[simp] theorem withBase_kv (s : State) (b : Block) : (withBase s b).kv = s.kv := rfl
@[simp] theorem withBase_nv (s : State) (b : Block) : (withBase s b).nv = s.nv := rfl
@[simp] theorem withBase_seeded (s : State) (b : Block) : (withBase s b).seeded = s.seeded := rfl
@[simp] theorem withBase_blkv (s : State) (b : Block) : (withBase s b).blkv = s.blkv := rfl
@[simp] theorem withBase_busy (s : State) (b : Block) : (withBase s b).busy = s.busy := rfl
@[simp] theorem withBase_done (s : State) (b : Block) : (withBase s b).done = s.done := rfl
@[simp] theorem withBase_fault (s : State) (b : Block) : (withBase s b).fault = s.fault := rfl
@[simp] theorem withBase_cause (s : State) (b : Block) : (withBase s b).cause = s.cause := rfl
@[simp] theorem withBase_faddr (s : State) (b : Block) : (withBase s b).faddr = s.faddr := rfl
@[simp] theorem withBase_mem (s : State) (b : Block) : (withBase s b).mem = s.mem := rfl
@[simp] theorem withBase_cfg (s : State) (b : Block) : (withBase s b).cfg = s.cfg := rfl
@[simp] theorem withBase_host (s : State) (b : Block) : (withBase s b).host = s.host := rfl
@[simp] theorem withBase_reads (s : State) (b : Block) : (withBase s b).reads = s.reads := rfl
@[simp] theorem withBase_accesses (s : State) (b : Block) : (withBase s b).accesses = s.accesses := rfl

/-! `withSeeded`. -/

@[simp] theorem withSeeded_key (s : State) : (withSeeded s).key = s.key := rfl
@[simp] theorem withSeeded_nonce (s : State) : (withSeeded s).nonce = s.nonce := rfl
@[simp] theorem withSeeded_base (s : State) : (withSeeded s).base = s.base := rfl
@[simp] theorem withSeeded_blk (s : State) : (withSeeded s).blk = s.blk := rfl
@[simp] theorem withSeeded_daddr (s : State) : (withSeeded s).daddr = s.daddr := rfl
@[simp] theorem withSeeded_saddr (s : State) : (withSeeded s).saddr = s.saddr := rfl
@[simp] theorem withSeeded_dlen (s : State) : (withSeeded s).dlen = s.dlen := rfl
@[simp] theorem withSeeded_off (s : State) : (withSeeded s).off = s.off := rfl
@[simp] theorem withSeeded_rem (s : State) : (withSeeded s).rem = s.rem := rfl
@[simp] theorem withSeeded_bsz (s : State) : (withSeeded s).bsz = s.bsz := rfl
@[simp] theorem withSeeded_kv (s : State) : (withSeeded s).kv = s.kv := rfl
@[simp] theorem withSeeded_nv (s : State) : (withSeeded s).nv = s.nv := rfl
@[simp] theorem withSeeded_seeded (s : State) : (withSeeded s).seeded = true := rfl
@[simp] theorem withSeeded_blkv (s : State) : (withSeeded s).blkv = s.blkv := rfl
@[simp] theorem withSeeded_busy (s : State) : (withSeeded s).busy = s.busy := rfl
@[simp] theorem withSeeded_done (s : State) : (withSeeded s).done = s.done := rfl
@[simp] theorem withSeeded_fault (s : State) : (withSeeded s).fault = s.fault := rfl
@[simp] theorem withSeeded_cause (s : State) : (withSeeded s).cause = s.cause := rfl
@[simp] theorem withSeeded_faddr (s : State) : (withSeeded s).faddr = s.faddr := rfl
@[simp] theorem withSeeded_mem (s : State) : (withSeeded s).mem = s.mem := rfl
@[simp] theorem withSeeded_cfg (s : State) : (withSeeded s).cfg = s.cfg := rfl
@[simp] theorem withSeeded_host (s : State) : (withSeeded s).host = s.host := rfl
@[simp] theorem withSeeded_reads (s : State) : (withSeeded s).reads = s.reads := rfl
@[simp] theorem withSeeded_accesses (s : State) : (withSeeded s).accesses = s.accesses := rfl

/-! `withSequencer`. -/

@[simp] theorem withSequencer_key (s : State) (o r : Addr) (n : Fin 65) : (withSequencer s o r n).key = s.key := rfl
@[simp] theorem withSequencer_nonce (s : State) (o r : Addr) (n : Fin 65) : (withSequencer s o r n).nonce = s.nonce := rfl
@[simp] theorem withSequencer_base (s : State) (o r : Addr) (n : Fin 65) : (withSequencer s o r n).base = s.base := rfl
@[simp] theorem withSequencer_blk (s : State) (o r : Addr) (n : Fin 65) : (withSequencer s o r n).blk = s.blk := rfl
@[simp] theorem withSequencer_daddr (s : State) (o r : Addr) (n : Fin 65) : (withSequencer s o r n).daddr = s.daddr := rfl
@[simp] theorem withSequencer_saddr (s : State) (o r : Addr) (n : Fin 65) : (withSequencer s o r n).saddr = s.saddr := rfl
@[simp] theorem withSequencer_dlen (s : State) (o r : Addr) (n : Fin 65) : (withSequencer s o r n).dlen = s.dlen := rfl
@[simp] theorem withSequencer_off (s : State) (o r : Addr) (n : Fin 65) : (withSequencer s o r n).off = o := rfl
@[simp] theorem withSequencer_rem (s : State) (o r : Addr) (n : Fin 65) : (withSequencer s o r n).rem = r := rfl
@[simp] theorem withSequencer_bsz (s : State) (o r : Addr) (n : Fin 65) : (withSequencer s o r n).bsz = n := rfl
@[simp] theorem withSequencer_kv (s : State) (o r : Addr) (n : Fin 65) : (withSequencer s o r n).kv = s.kv := rfl
@[simp] theorem withSequencer_nv (s : State) (o r : Addr) (n : Fin 65) : (withSequencer s o r n).nv = s.nv := rfl
@[simp] theorem withSequencer_seeded (s : State) (o r : Addr) (n : Fin 65) : (withSequencer s o r n).seeded = s.seeded := rfl
@[simp] theorem withSequencer_blkv (s : State) (o r : Addr) (n : Fin 65) : (withSequencer s o r n).blkv = s.blkv := rfl
@[simp] theorem withSequencer_busy (s : State) (o r : Addr) (n : Fin 65) : (withSequencer s o r n).busy = s.busy := rfl
@[simp] theorem withSequencer_done (s : State) (o r : Addr) (n : Fin 65) : (withSequencer s o r n).done = s.done := rfl
@[simp] theorem withSequencer_fault (s : State) (o r : Addr) (n : Fin 65) : (withSequencer s o r n).fault = s.fault := rfl
@[simp] theorem withSequencer_cause (s : State) (o r : Addr) (n : Fin 65) : (withSequencer s o r n).cause = s.cause := rfl
@[simp] theorem withSequencer_faddr (s : State) (o r : Addr) (n : Fin 65) : (withSequencer s o r n).faddr = s.faddr := rfl
@[simp] theorem withSequencer_mem (s : State) (o r : Addr) (n : Fin 65) : (withSequencer s o r n).mem = s.mem := rfl
@[simp] theorem withSequencer_cfg (s : State) (o r : Addr) (n : Fin 65) : (withSequencer s o r n).cfg = s.cfg := rfl
@[simp] theorem withSequencer_host (s : State) (o r : Addr) (n : Fin 65) : (withSequencer s o r n).host = s.host := rfl
@[simp] theorem withSequencer_reads (s : State) (o r : Addr) (n : Fin 65) : (withSequencer s o r n).reads = s.reads := rfl
@[simp] theorem withSequencer_accesses (s : State) (o r : Addr) (n : Fin 65) : (withSequencer s o r n).accesses = s.accesses := rfl

/-! `withMem`. -/

@[simp] theorem withMem_key (s : State) (m : Memory) : (withMem s m).key = s.key := rfl
@[simp] theorem withMem_nonce (s : State) (m : Memory) : (withMem s m).nonce = s.nonce := rfl
@[simp] theorem withMem_base (s : State) (m : Memory) : (withMem s m).base = s.base := rfl
@[simp] theorem withMem_blk (s : State) (m : Memory) : (withMem s m).blk = s.blk := rfl
@[simp] theorem withMem_daddr (s : State) (m : Memory) : (withMem s m).daddr = s.daddr := rfl
@[simp] theorem withMem_saddr (s : State) (m : Memory) : (withMem s m).saddr = s.saddr := rfl
@[simp] theorem withMem_dlen (s : State) (m : Memory) : (withMem s m).dlen = s.dlen := rfl
@[simp] theorem withMem_off (s : State) (m : Memory) : (withMem s m).off = s.off := rfl
@[simp] theorem withMem_rem (s : State) (m : Memory) : (withMem s m).rem = s.rem := rfl
@[simp] theorem withMem_bsz (s : State) (m : Memory) : (withMem s m).bsz = s.bsz := rfl
@[simp] theorem withMem_kv (s : State) (m : Memory) : (withMem s m).kv = s.kv := rfl
@[simp] theorem withMem_nv (s : State) (m : Memory) : (withMem s m).nv = s.nv := rfl
@[simp] theorem withMem_seeded (s : State) (m : Memory) : (withMem s m).seeded = s.seeded := rfl
@[simp] theorem withMem_blkv (s : State) (m : Memory) : (withMem s m).blkv = s.blkv := rfl
@[simp] theorem withMem_busy (s : State) (m : Memory) : (withMem s m).busy = s.busy := rfl
@[simp] theorem withMem_done (s : State) (m : Memory) : (withMem s m).done = s.done := rfl
@[simp] theorem withMem_fault (s : State) (m : Memory) : (withMem s m).fault = s.fault := rfl
@[simp] theorem withMem_cause (s : State) (m : Memory) : (withMem s m).cause = s.cause := rfl
@[simp] theorem withMem_faddr (s : State) (m : Memory) : (withMem s m).faddr = s.faddr := rfl
@[simp] theorem withMem_mem (s : State) (m : Memory) : (withMem s m).mem = m := rfl
@[simp] theorem withMem_cfg (s : State) (m : Memory) : (withMem s m).cfg = s.cfg := rfl
@[simp] theorem withMem_host (s : State) (m : Memory) : (withMem s m).host = s.host := rfl
@[simp] theorem withMem_reads (s : State) (m : Memory) : (withMem s m).reads = s.reads := rfl
@[simp] theorem withMem_accesses (s : State) (m : Memory) : (withMem s m).accesses = s.accesses := rfl

/-! `resetEngine`. -/

@[simp] theorem resetEngine_key (s : State) : (resetEngine s).key = Vector.replicate 8 0 := rfl
@[simp] theorem resetEngine_nonce (s : State) : (resetEngine s).nonce = Vector.replicate 4 0 := rfl
@[simp] theorem resetEngine_base (s : State) : (resetEngine s).base = Vector.replicate 16 0 := rfl
@[simp] theorem resetEngine_blk (s : State) : (resetEngine s).blk = Vector.replicate 16 0 := rfl
@[simp] theorem resetEngine_daddr (s : State) : (resetEngine s).daddr = 0 := rfl
@[simp] theorem resetEngine_saddr (s : State) : (resetEngine s).saddr = 0 := rfl
@[simp] theorem resetEngine_dlen (s : State) : (resetEngine s).dlen = 0 := rfl
@[simp] theorem resetEngine_off (s : State) : (resetEngine s).off = 0 := rfl
@[simp] theorem resetEngine_rem (s : State) : (resetEngine s).rem = 0 := rfl
@[simp] theorem resetEngine_bsz (s : State) : (resetEngine s).bsz = 0 := rfl
@[simp] theorem resetEngine_kv (s : State) : (resetEngine s).kv = 0 := rfl
@[simp] theorem resetEngine_nv (s : State) : (resetEngine s).nv = 0 := rfl
@[simp] theorem resetEngine_seeded (s : State) : (resetEngine s).seeded = false := rfl
@[simp] theorem resetEngine_blkv (s : State) : (resetEngine s).blkv = 0 := rfl
@[simp] theorem resetEngine_busy (s : State) : (resetEngine s).busy = false := rfl
@[simp] theorem resetEngine_done (s : State) : (resetEngine s).done = false := rfl
@[simp] theorem resetEngine_fault (s : State) : (resetEngine s).fault = false := rfl
@[simp] theorem resetEngine_cause (s : State) : (resetEngine s).cause = none := rfl
@[simp] theorem resetEngine_faddr (s : State) : (resetEngine s).faddr = 0 := rfl
@[simp] theorem resetEngine_mem (s : State) : (resetEngine s).mem = s.mem := rfl
@[simp] theorem resetEngine_cfg (s : State) : (resetEngine s).cfg = s.cfg := rfl
@[simp] theorem resetEngine_host (s : State) : (resetEngine s).host = s.host := rfl
@[simp] theorem resetEngine_reads (s : State) : (resetEngine s).reads = s.reads := rfl
@[simp] theorem resetEngine_accesses (s : State) : (resetEngine s).accesses = s.accesses := rfl

end Sys2Proof.Machine
end

