-- ==== Sys2Proof/Laws/Command.lean ====
section
/-! SUPPORT. The framing of a command (R59) and the flow of its steps (R14, R87): what a command leaves, and how a property of all
its steps becomes a property of the command. -/

namespace Sys2Proof.Machine

@[simp] theorem andThen_ok (s : State) (g : State → Flow) : (Flow.ok s).andThen g = g s := rfl
@[simp] theorem andThen_raised (s : State) (g : State → Flow) : (Flow.raised s).andThen g = .raised s := rfl
@[simp] theorem settle_ok (s : State) : settle (.ok s) = completeCommand s := rfl
@[simp] theorem settle_raised (s : State) : settle (.raised s) = s := rfl

theorem andThen_assoc (f : Flow) (g h : State → Flow) : (f.andThen g).andThen h = f.andThen fun s => (g s).andThen h := by
  cases f <;> rfl

theorem gated_eq_false {s : State} : gated s = false ↔ s.fault = false ∧ s.busy = false := by
  simp [gated]

/-- A gated command changes nothing (R59 step 1, R115). -/
theorem command_gated {body : State → Flow} {s : State} (h : gated s = true) : command body s = s := if_pos h

/-- A ready engine starts the command, performs the body and settles (R59). -/
theorem command_ready {body : State → Flow} {s : State} (h : s.fault = false ∧ s.busy = false) :
    command body s = settle (body (startCommand s)) :=
  if_neg (by rw [gated_eq_false.mpr h]; exact Bool.false_ne_true)

/-- What a command can do: be ignored, complete, or end in a fault. -/
theorem command_cases (body : State → Flow) (s : State) :
    (gated s = true ∧ command body s = s) ∨
    (gated s = false ∧ ∃ t, body (startCommand s) = .ok t ∧ command body s = completeCommand t) ∨
    (gated s = false ∧ ∃ t, body (startCommand s) = .raised t ∧ command body s = t) := by
  cases h : gated s
  · have hc : command body s = settle (body (startCommand s)) := command_ready (gated_eq_false.mp h)
    cases hb : body (startCommand s) with
    | ok t => exact .inr (.inl ⟨rfl, t, rfl, by rw [hc, hb]; rfl⟩)
    | raised t => exact .inr (.inr ⟨rfl, t, rfl, by rw [hc, hb]; rfl⟩)
  · exact .inl ⟨rfl, command_gated h⟩

/-- A property of the state a flow carries, whichever way it goes on. -/
def Flow.All (P : State → Prop) : Flow → Prop
  | .ok s => P s
  | .raised s => P s

@[simp] theorem all_ok (P : State → Prop) (s : State) : (Flow.ok s).All P = P s := rfl
@[simp] theorem all_raised (P : State → Prop) (s : State) : (Flow.raised s).All P = P s := rfl
@[simp] theorem all_raise (P : State → Prop) (s : State) (c : Cause) (n : Nat) :
    (raise s c n).All P = P (enterFault s c n) := rfl

theorem Flow.All.mono {P Q : State → Prop} {f : Flow} (h : f.All P) (hi : ∀ s, P s → Q s) : f.All Q := by
  cases f <;> exact hi _ h

theorem Flow.All.andThen {P : State → Prop} {f : Flow} {g : State → Flow} (hf : f.All P)
    (hg : ∀ s, P s → (g s).All P) : (f.andThen g).All P := by
  cases f
  · exact hg _ hf
  · exact hf

/-- A property that the body gives and that neither the start nor the completion can break holds of what the command leaves. -/
theorem command_all {P : State → Prop} {body : State → Flow} {s : State} (h0 : P s)
    (hb : (body (startCommand s)).All P) (hc : ∀ t, P t → P (completeCommand t)) : P (command body s) := by
  obtain ⟨_, h⟩ | ⟨_, t, ht, h⟩ | ⟨_, t, ht, h⟩ := command_cases body s
  · rwa [h]
  · rw [h]; rw [ht] at hb; exact hc t hb
  · rw [h]; rw [ht] at hb; exact hb

end Sys2Proof.Machine
end

