-- ==== Sys2Proof/Laws/Mix.lean ====
section
/-! SUPPORT. The round function: which word one update changes, and the body of MIX. -/

namespace Sys2Proof.Machine

theorem laneIdx_inj {j l j' l' : Fin 4} : laneIdx j l = laneIdx j' l' ↔ j = j' ∧ l = l' := by
  simp only [laneIdx, Fin.ext_iff]
  omega

/-- Every word of a register file is a lane of a chunk (R25). -/
theorem laneIdx_surj (n : Fin 16) : ∃ j l, n = laneIdx j l :=
  ⟨⟨n.val / 4, by omega⟩, ⟨n.val % 4, by omega⟩, by simp only [laneIdx, Fin.ext_iff]; omega⟩

/-- One update changes one lane, by its own old value and words of the snapshots (R69). -/
theorem laneUpdate_get (x : Block) (l : Fin 4) (b : Block) (j j' l' : Fin 4) :
    (laneUpdate x l b j)[laneIdx j' l'] =
      if j' = j ∧ l' = l then
        add32 (add32 b[laneIdx j l] (snapshot x (j + 1) l) ^^^ ror32 (snapshot x (j + 3) (l + 1)) (rotation j))
          (snapshot x (j + 2) (l + 2))
      else b[laneIdx j' l'] := by
  simp only [laneUpdate, Fin.getElem_fin, Vector.getElem_set]
  by_cases h : j' = j ∧ l' = l
  · rw [if_pos h, if_pos (by rw [h.1, h.2])]
  · rw [if_neg h, if_neg]
    intro hv
    exact h (laneIdx_inj.mp (Fin.ext hv.symm))

/-- Adding 2^31 to a word flips its top bit (R94). -/
theorem add_topBit (x : Word) : x + 0x80000000#32 = x ^^^ 0x80000000#32 := by
  have low : ∀ i, i < 32 → (0x80000000#32).toNat % 2 ^ i = 0 := by decide
  apply BitVec.eq_of_getLsbD_eq
  intro i hi
  have hc : BitVec.carry i x 0x80000000#32 false = false := by
    have := Nat.mod_lt x.toNat (Nat.two_pow_pos i)
    simp only [BitVec.carry, low i hi]
    simpa using this
  rw [BitVec.getLsbD_add hi, hc, BitVec.getLsbD_xor]
  simp

theorem blkReady_iff {s : State} : blkReady s = true ↔ s.blkv = 0xFFFF := by simp [blkReady]

theorem mixBody_ready {s : State} (h : s.blkv = 0xFFFF) : mixBody s = .ok (withBlk s (mix s.blk)) :=
  if_pos (blkReady_iff.mpr h)

theorem mixBody_notReady {s : State} (h : s.blkv ≠ 0xFFFF) : mixBody s = raise s .notReady 0 :=
  if_neg (mt blkReady_iff.mp h)

end Sys2Proof.Machine
end

