-- ==== Sys2Proof/Laws/Memory.lean ====
section
/-! SUPPORT. Memory: reading after writing, byte by byte and over a span; and every operation keeps the canonical form. -/

namespace Sys2Proof.Machine

theorem read_erase (m : Memory) (x y : Nat) :
    Memory.read (Memory.erase m x) y = if y = x then unlisted else Memory.read m y := by
  induction m with
  | nil => simp [Memory.erase, Memory.read]
  | cons c m ih =>
    obtain ⟨a, b⟩ := c
    simp only [Memory.erase] at ih
    by_cases h : a = x
    · subst h
      simp only [Memory.erase, List.filter_cons, bne_self_eq_false, Bool.false_eq_true, if_false, ih, Memory.read]
      by_cases hy : y = a
      · simp [hy]
      · simp [hy, Ne.symm hy]
    · simp only [Memory.erase, List.filter_cons, bne_iff_ne, ne_eq, h, not_false_eq_true, if_true, ih, Memory.read]
      by_cases hy : a = y
      · subst hy; simp [h]
      · simp [hy]

theorem read_insert (m : Memory) (x : Nat) (v : Byte) (y : Nat) (h : ∀ c ∈ m, c.1 ≠ x) :
    Memory.read (Memory.insert m x v) y = if y = x then v else Memory.read m y := by
  induction m with
  | nil =>
    by_cases hy : y = x
    · simp [Memory.insert, Memory.read, hy]
    · simp [Memory.insert, Memory.read, hy, Ne.symm hy]
  | cons c m ih =>
    obtain ⟨a, b⟩ := c
    have ha : a ≠ x := h (a, b) (by simp)
    have ih := ih fun c hc => h c (by simp [hc])
    simp only [Memory.insert]
    split
    · by_cases hy : y = x
      · simp [Memory.read, hy]
      · simp [Memory.read, hy, Ne.symm hy]
    · simp only [Memory.read, ih]
      by_cases hy : a = y
      · subst hy; simp [ha]
      · simp [hy]

theorem erase_ne (m : Memory) (x : Nat) : ∀ c ∈ Memory.erase m x, c.1 ≠ x := by
  intro c hc
  simpa using (List.mem_filter.mp hc).2

/-- A read after a write: the byte written at its address, and the old byte everywhere else. -/
theorem read_write (m : Memory) (x : Nat) (v : Byte) (y : Nat) :
    Memory.read (Memory.write m x v) y = if y = x then v else Memory.read m y := by
  unfold Memory.write
  split
  · rename_i h; rw [read_erase, h]
  · rw [read_insert _ _ _ _ (erase_ne m x), read_erase]
    by_cases hy : y = x <;> simp [hy]

/-- A read after a span was written. -/
theorem read_writeBytes (bs : List Byte) (m : Memory) (a y : Nat) :
    Memory.read (Memory.writeBytes m a bs) y =
      if h : a ≤ y ∧ y < a + bs.length then bs[y - a]'(by omega) else Memory.read m y := by
  induction bs generalizing m a with
  | nil =>
    rw [dif_neg (by simp), Memory.writeBytes]
  | cons b bs ih =>
    rw [Memory.writeBytes, ih, read_write]
    by_cases hy : y = a
    · subst hy; simp
    · by_cases h : a + 1 ≤ y ∧ y < a + 1 + bs.length
      · have h' : a ≤ y ∧ y < a + (b :: bs).length := by simp; omega
        rw [dif_pos h, dif_pos h', List.getElem_cons, dif_neg (by omega)]
        congr 1
      · have h' : ¬(a ≤ y ∧ y < a + (b :: bs).length) := by simp; omega
        rw [dif_neg h, dif_neg h', if_neg hy]

/-- A span's bytes replaced by themselves XOR a list: the bytes of the span change so, and no other byte. -/
theorem read_xorSpan (m : Memory) (a : Nat) (bs : List Byte) (y : Nat) :
    Memory.read (Memory.writeBytes m a (xorBytes (Memory.readBytes m a bs.length) bs)) y =
      if h : a ≤ y ∧ y < a + bs.length then Memory.read m y ^^^ bs[y - a]'(by omega) else Memory.read m y := by
  rw [read_writeBytes]
  by_cases h : a ≤ y ∧ y < a + bs.length
  · have hl : a ≤ y ∧ y < a + (xorBytes (Memory.readBytes m a bs.length) bs).length := by
      simpa [xorBytes, Memory.readBytes] using h
    rw [dif_pos h, dif_pos hl]
    have : a + (y - a) = y := by omega
    simp [xorBytes, Memory.readBytes, this]
  · have hl : ¬(a ≤ y ∧ y < a + (xorBytes (Memory.readBytes m a bs.length) bs).length) := by
      simpa [xorBytes, Memory.readBytes] using h
    rw [dif_neg h, dif_neg hl]

/-! The canonical form. -/

theorem wfFrom_mono {lo lo' : Nat} (h : lo' ≤ lo) : ∀ {m : Memory}, Memory.wfFrom lo m = true → Memory.wfFrom lo' m = true
  | [], _ => rfl
  | (a, b) :: m, hm => by
    simp only [Memory.wfFrom, Bool.and_eq_true, decide_eq_true_eq] at hm ⊢
    exact ⟨⟨by omega, hm.1.2⟩, hm.2⟩

theorem wfFrom_erase (x : Nat) : ∀ {lo : Nat} {m : Memory}, Memory.wfFrom lo m = true → Memory.wfFrom lo (Memory.erase m x) = true
  | _, [], _ => rfl
  | lo, (a, b) :: m, hm => by
    simp only [Memory.wfFrom, Bool.and_eq_true, decide_eq_true_eq] at hm
    have ih := wfFrom_erase x hm.2
    simp only [Memory.erase, List.filter_cons] at ih ⊢
    split
    · simp only [Memory.wfFrom, Bool.and_eq_true, decide_eq_true_eq]; exact ⟨hm.1, ih⟩
    · exact wfFrom_mono (by omega) ih

theorem wfFrom_insert {x : Nat} {v : Byte} (hv : v ≠ unlisted) :
    ∀ {lo : Nat} {m : Memory}, lo ≤ x → (∀ c ∈ m, c.1 ≠ x) → Memory.wfFrom lo m = true →
      Memory.wfFrom lo (Memory.insert m x v) = true
  | _, [], hlo, _, _ => by simp [Memory.insert, Memory.wfFrom, hlo, hv]
  | lo, (a, b) :: m, hlo, hne, hm => by
    have ha : a ≠ x := hne (a, b) (by simp)
    simp only [Memory.wfFrom, Bool.and_eq_true, decide_eq_true_eq, bne_iff_ne, ne_eq] at hm
    simp only [Memory.insert]
    split
    · rename_i hx
      simp only [Memory.wfFrom, Bool.and_eq_true, decide_eq_true_eq, bne_iff_ne, ne_eq]
      exact ⟨⟨hlo, hv⟩, ⟨by omega, hm.1.2⟩, hm.2⟩
    · simp only [Memory.wfFrom, Bool.and_eq_true, decide_eq_true_eq, bne_iff_ne, ne_eq]
      exact ⟨hm.1, wfFrom_insert hv (by omega) (fun c hc => hne c (by simp [hc])) hm.2⟩

/-- A write keeps the canonical form. -/
theorem wf_write {m : Memory} (h : Memory.wf m = true) (x : Nat) (v : Byte) : Memory.wf (Memory.write m x v) = true := by
  unfold Memory.write
  split
  · exact wfFrom_erase x h
  · rename_i hv
    exact wfFrom_insert hv (Nat.zero_le x) (erase_ne m x) (wfFrom_erase x h)

/-- Writing a span keeps the canonical form. -/
theorem wf_writeBytes (bs : List Byte) {m : Memory} (h : Memory.wf m = true) (a : Nat) :
    Memory.wf (Memory.writeBytes m a bs) = true := by
  induction bs generalizing m a with
  | nil => exact h
  | cons b bs ih => exact ih (wf_write h a b) (a + 1)

/-- The memory of the reset state is in the canonical form. -/
theorem wf_reset : Memory.wf State.reset.mem = true := rfl

theorem below_insert {n x : Nat} {v : Byte} (hx : x < n) :
    ∀ {m : Memory}, Memory.below n m = true → Memory.below n (Memory.insert m x v) = true
  | [], _ => by simp [Memory.insert, Memory.below, hx]
  | (a, b) :: m, h => by
    simp only [Memory.below, List.all_cons, Bool.and_eq_true] at h
    simp only [Memory.insert]
    split
    · simp only [Memory.below, List.all_cons, Bool.and_eq_true, decide_eq_true_eq]
      exact ⟨hx, by simpa using h.1, h.2⟩
    · simp only [Memory.below, List.all_cons, Bool.and_eq_true]
      exact ⟨h.1, below_insert hx h.2⟩

theorem below_erase {n : Nat} (x : Nat) {m : Memory} (h : Memory.below n m = true) :
    Memory.below n (Memory.erase m x) = true := by
  simp only [Memory.below, Memory.erase, List.all_eq_true] at h ⊢
  exact fun c hc => h c (List.mem_filter.mp hc).1

theorem below_write {n : Nat} {m : Memory} (h : Memory.below n m = true) {x : Nat} (hx : x < n) (v : Byte) :
    Memory.below n (Memory.write m x v) = true := by
  unfold Memory.write
  split
  · exact below_erase x h
  · exact below_insert hx (below_erase x h)

/-- Writing a span that lies below `n` keeps every listed address below `n`. -/
theorem below_writeBytes (bs : List Byte) {n : Nat} {m : Memory} (h : Memory.below n m = true) {a : Nat}
    (ha : a + bs.length ≤ n) : Memory.below n (Memory.writeBytes m a bs) = true := by
  induction bs generalizing m a with
  | nil => exact h
  | cons b bs ih =>
    simp only [List.length_cons] at ha
    exact ih (below_write h (by omega) b) (by omega)

end Sys2Proof.Machine
end

