-- ==== Sys2Proof/Laws/Xor.lean ====
section
/-! SUPPORT. The XOR datapath: what one access, one chunk and a run of chunks do to the data space, and what they leave alone. -/

namespace Sys2Proof.Machine

/-- `t` is `s` but for the data space and the history of accesses. -/
def DataOnly (s t : State) : Prop := t = { s with mem := t.mem, accesses := t.accesses }

theorem DataOnly.refl (s : State) : DataOnly s s := rfl

theorem DataOnly.trans {s t u : State} (h : DataOnly s t) (h' : DataOnly t u) : DataOnly s u := by
  unfold DataOnly at *
  rw [h', h]

theorem dataOnly_logAccess (s : State) (k : AccessKind) (a n : Nat) : DataOnly s (logAccess s k a n) := rfl

theorem dataOnly_withMem (s : State) (m : Memory) : DataOnly s (withMem s m) := rfl

theorem DataOnly.cfg_eq {s t : State} (h : DataOnly s t) : t.cfg = s.cfg := by rw [h]
theorem DataOnly.daddr_eq {s t : State} (h : DataOnly s t) : t.daddr = s.daddr := by rw [h]
theorem DataOnly.saddr_eq {s t : State} (h : DataOnly s t) : t.saddr = s.saddr := by rw [h]
theorem DataOnly.off_eq {s t : State} (h : DataOnly s t) : t.off = s.off := by rw [h]
theorem DataOnly.blk_eq {s t : State} (h : DataOnly s t) : t.blk = s.blk := by rw [h]
theorem DataOnly.blockStart_eq {s t : State} (h : DataOnly s t) : blockStart t = blockStart s := by
  rw [blockStart, blockStart, h.daddr_eq, h.off_eq]

theorem memRead_ok {s : State} {a n : Nat} {k : List Byte → State → Flow} (h : admitted s.cfg a n .read = true) :
    memRead s a n k = k (Memory.readBytes s.mem a n) (logAccess s .read a n) := if_pos h

theorem memRead_refused {s : State} {a n : Nat} {k : List Byte → State → Flow} (h : admitted s.cfg a n .read = false) :
    memRead s a n k = raise s .bus a := if_neg (by simp [h])

theorem memWrite_ok {s : State} {a n : Nat} {b : List Byte} (h : admitted s.cfg a n .write = true) :
    memWrite s a n b = .ok (withMem (logAccess s .write a n) (Memory.writeBytes s.mem a b)) := if_pos h

theorem memWrite_refused {s : State} {a n : Nat} {b : List Byte} (h : admitted s.cfg a n .write = false) :
    memWrite s a n b = raise s .bus a := if_neg (by simp [h])

/-- The state after one chunk was XORed: its read and its write were performed (R96). -/
def afterChunk (s : State) (a n : Nat) (b : List Byte) : State :=
  withMem (logAccess (logAccess s .read a n) .write a n) (Memory.writeBytes s.mem a (xorBytes (Memory.readBytes s.mem a n) b))

theorem chunkXor_ok {s : State} {a n : Nat} {b : List Byte} (hr : admitted s.cfg a n .read = true)
    (hw : admitted s.cfg a n .write = true) : chunkXor s a n b = .ok (afterChunk s a n b) := by
  rw [chunkXor, memRead_ok hr, memWrite_ok (by simpa using hw)]
  rfl

/-- What the XOR of one chunk can do (R96, R111). -/
theorem chunkXor_cases (s : State) (a n : Nat) (b : List Byte) :
    (admitted s.cfg a n .read = true ∧ admitted s.cfg a n .write = true ∧ chunkXor s a n b = .ok (afterChunk s a n b)) ∨
    (admitted s.cfg a n .read = false ∧ chunkXor s a n b = raise s .bus a) ∨
    (admitted s.cfg a n .read = true ∧ admitted s.cfg a n .write = false ∧
      chunkXor s a n b = raise (logAccess s .read a n) .bus a) := by
  cases hr : admitted s.cfg a n .read
  · exact .inr (.inl ⟨rfl, by rw [chunkXor, memRead_refused hr]⟩)
  · cases hw : admitted s.cfg a n .write
    · exact .inr (.inr ⟨rfl, rfl, by rw [chunkXor, memRead_ok hr, memWrite_refused (by simpa using hw)]⟩)
    · exact .inl ⟨rfl, rfl, chunkXor_ok hr hw⟩

theorem dataOnly_afterChunk (s : State) (a n : Nat) (b : List Byte) : DataOnly s (afterChunk s a n b) := rfl

theorem read_afterChunk (s : State) (a : Nat) {n : Nat} {b : List Byte} (hn : b.length = n) (y : Nat) :
    Memory.read (afterChunk s a n b).mem y =
      if a ≤ y ∧ y < a + n then Memory.read s.mem y ^^^ b.getD (y - a) 0 else Memory.read s.mem y := by
  subst hn
  rw [afterChunk, withMem_mem, read_xorSpan]
  by_cases h : a ≤ y ∧ y < a + b.length
  · rw [dif_pos h, if_pos h, List.getD_eq_getElem _ _ (by omega)]
  · rw [dif_neg h, if_neg h]

@[simp] theorem blkBytes_length (b : Block) (o n : Nat) : (blkBytes b o n).length = n := by simp [blkBytes]

@[simp] theorem readBytes_length (m : Memory) (a n : Nat) : (Memory.readBytes m a n).length = n := by
  simp [Memory.readBytes]

/-! A run of chunks. -/

/-- If each chunk, in a state with `I`, completes, keeps `I`, changes only the data space, and XORs its bytes with the source
bytes `src`, then the run completes and does so to all the bytes the chunks cover. -/
theorem runChunks_ok {chunk : State → Nat → Nat → Flow} {I : State → Prop} {acc : Nat → Nat → List Access} {dst : Nat}
    {src : Nat → Byte} {all : List (Nat × Nat)}
    (hchunk : ∀ s o w, I s → (o, w) ∈ all → ∃ t, chunk s o w = .ok t ∧ I t ∧ DataOnly s t ∧
      t.accesses = s.accesses ++ acc o w ∧
      ∀ y, Memory.read t.mem y =
        if dst + o ≤ y ∧ y < dst + o + w then Memory.read s.mem y ^^^ src (y - dst) else Memory.read s.mem y) :
    ∀ (cs : List (Nat × Nat)) (o : Nat) (s : State), Contiguous o cs → (∀ ow ∈ cs, ow ∈ all) → I s →
      ∃ t, runChunks chunk cs s = .ok t ∧ I t ∧ DataOnly s t ∧
        t.accesses = s.accesses ++ cs.flatMap (fun ow => acc ow.1 ow.2) ∧
        ∀ y, Memory.read t.mem y =
          if dst + o ≤ y ∧ y < dst + o + covered cs then Memory.read s.mem y ^^^ src (y - dst) else Memory.read s.mem y
  | [], o, s, _, _, hI => by
    refine ⟨s, rfl, hI, .refl s, by simp, fun y => ?_⟩
    rw [if_neg (by simp only [covered]; omega)]
  | (a, w) :: cs, o, s, hc, hall, hI => by
    obtain ⟨t, ht, hIt, hd, ha, hm⟩ := hchunk s a w hI (hall _ (by simp))
    obtain ⟨u, hu, hIu, hd', ha', hm'⟩ :=
      runChunks_ok hchunk cs (o + w) t hc.2 (fun ow h => hall ow (by simp [h])) hIt
    have hao := hc.1
    subst hao
    refine ⟨u, by rw [runChunks, ht]; exact hu, hIu, hd.trans hd', by simp [ha', ha], fun y => ?_⟩
    have hcov : covered ((a, w) :: cs) = w + covered cs := rfl
    rw [hm', hm, hcov]
    by_cases h1 : dst + (a + w) ≤ y ∧ y < dst + (a + w) + covered cs
    · rw [if_pos h1, if_neg (by omega), if_pos (by omega)]
    · by_cases h2 : dst + a ≤ y ∧ y < dst + a + w
      · rw [if_neg h1, if_pos h2, if_pos (by omega)]
      · rw [if_neg h1, if_neg h2, if_neg (by omega)]

/-- A property that every chunk keeps is kept by the run. -/
theorem runChunks_all {chunk : State → Nat → Nat → Flow} {P : State → Prop} {all : List (Nat × Nat)}
    (hchunk : ∀ s o w, (o, w) ∈ all → P s → (chunk s o w).All P) :
    ∀ (cs : List (Nat × Nat)) (s : State), (∀ ow ∈ cs, ow ∈ all) → P s → (runChunks chunk cs s).All P
  | [], _, _, h => h
  | (a, w) :: cs, s, hall, h =>
    (hchunk s a w (hall _ (by simp)) h).andThen fun t ht =>
      runChunks_all hchunk cs t (fun ow ho => hall ow (by simp [ho])) ht

/-- A run whose first chunks complete goes on from where they end. -/
theorem runChunks_append (chunk : State → Nat → Nat → Flow) : ∀ (cs ds : List (Nat × Nat)) (s : State),
    runChunks chunk (cs ++ ds) s = (runChunks chunk cs s).andThen (runChunks chunk ds)
  | [], _, _ => rfl
  | (a, w) :: cs, ds, s => by
    simp only [List.cons_append, runChunks, andThen_assoc]
    congr 1
    funext t
    exact runChunks_append chunk cs ds t

/-! XORB. -/

/-- The accesses of one chunk of XORB, in order (R49). -/
def xorbAccesses (dst : Nat) (o w : Nat) : List Access := [⟨.read, dst + o, w⟩, ⟨.write, dst + o, w⟩]

theorem xorbChunk_ok {s : State} {o w : Nat} (hr : admitted s.cfg (blockStart s + o) w .read = true)
    (hw : admitted s.cfg (blockStart s + o) w .write = true) :
    ∃ t, xorbChunk s o w = .ok t ∧ DataOnly s t ∧ t.accesses = s.accesses ++ xorbAccesses (blockStart s) o w ∧
      ∀ y, Memory.read t.mem y =
        if blockStart s + o ≤ y ∧ y < blockStart s + o + w then
          Memory.read s.mem y ^^^ blkByte s.blk (Fin.ofNat 64 (y - blockStart s))
        else Memory.read s.mem y := by
  refine ⟨_, chunkXor_ok hr hw, dataOnly_afterChunk .., by simp [afterChunk, xorbAccesses], fun y => ?_⟩
  rw [read_afterChunk _ _ (blkBytes_length ..)]
  by_cases hy : blockStart s + o ≤ y ∧ y < blockStart s + o + w
  · rw [if_pos hy, if_pos hy, List.getD_eq_getElem _ _ (by simp; omega)]
    simp only [blkBytes, List.getElem_map, List.getElem_range]
    congr 3
    omega
  · rw [if_neg hy, if_neg hy]

/-- XORB's chunks, each admitted, XOR the bytes they cover with the bytes of BLK (R101). -/
theorem xorb_run {s : State} {cs : List (Nat × Nat)} {o : Nat} (hc : Contiguous o cs)
    (h : ∀ ow ∈ cs, admitted s.cfg (blockStart s + ow.1) ow.2 .read = true ∧
      admitted s.cfg (blockStart s + ow.1) ow.2 .write = true) :
    ∃ t, runChunks xorbChunk cs s = .ok t ∧ DataOnly s t ∧
      t.accesses = s.accesses ++ cs.flatMap (fun ow => xorbAccesses (blockStart s) ow.1 ow.2) ∧
      ∀ y, Memory.read t.mem y =
        if blockStart s + o ≤ y ∧ y < blockStart s + o + covered cs then
          Memory.read s.mem y ^^^ blkByte s.blk (Fin.ofNat 64 (y - blockStart s))
        else Memory.read s.mem y := by
  obtain ⟨t, ht, hI, hd, ha, hm⟩ := runChunks_ok (chunk := xorbChunk) (I := fun t => DataOnly s t)
    (acc := xorbAccesses (blockStart s)) (dst := blockStart s)
    (src := fun k => blkByte s.blk (Fin.ofNat 64 k)) (all := cs)
    (fun t a w hI hm => by
      have hb := hI.blockStart_eq
      have hcfg := hI.cfg_eq
      obtain ⟨u, hu, hd, ha, hmem⟩ := xorbChunk_ok (s := t) (o := a) (w := w)
        (by rw [hcfg, hb]; exact (h _ hm).1) (by rw [hcfg, hb]; exact (h _ hm).2)
      rw [hb] at ha hmem
      rw [hI.blk_eq] at hmem
      exact ⟨u, hu, hI.trans hd, hd, ha, hmem⟩)
    cs o s hc (fun _ hm => hm) (.refl s)
  exact ⟨t, ht, hd, ha, hm⟩

/-- The bytes outside `lo .. hi-1` are as they were. -/
def SameOutside (lo hi : Nat) (m m' : Memory) : Prop := ∀ y, ¬(lo ≤ y ∧ y < hi) → Memory.read m' y = Memory.read m y

/-- What can be said of a state reached inside XORB or XORM, completed or not: only the data space, the history and the fault
registers differ, only inside the destination span, and the data space keeps its form. -/
structure DataStep (lo hi : Nat) (s t : State) : Prop where
  regs : t = { s with mem := t.mem, accesses := t.accesses, fault := t.fault, cause := t.cause, faddr := t.faddr, busy := t.busy }
  outside : SameOutside lo hi s.mem t.mem
  wf : Memory.wf s.mem = true → Memory.wf t.mem = true
  below : ∀ n, hi ≤ n → Memory.below n s.mem = true → Memory.below n t.mem = true

theorem DataStep.refl (lo hi : Nat) (s : State) : DataStep lo hi s s := ⟨rfl, fun _ _ => rfl, id, fun _ _ => id⟩

theorem DataStep.trans {lo hi : Nat} {s t u : State} (h : DataStep lo hi s t) (h' : DataStep lo hi t u) :
    DataStep lo hi s u where
  regs := by rw [h'.regs, h.regs]
  outside := fun y hy => (h'.outside y hy).trans (h.outside y hy)
  wf := h'.wf ∘ h.wf
  below := fun n hn => h'.below n hn ∘ h.below n hn

theorem dataStep_enterFault {lo hi : Nat} {s t : State} (h : DataStep lo hi s t) (c : Cause) (n : Nat) :
    DataStep lo hi s (enterFault t c n) where
  regs := by
    have := h.regs
    simp only [enterFault]
    rw [this]
  outside := h.outside
  wf := h.wf
  below := h.below

theorem dataStep_logAccess {lo hi : Nat} {s t : State} (h : DataStep lo hi s t) (k : AccessKind) (a n : Nat) :
    DataStep lo hi s (logAccess t k a n) where
  regs := by
    have := h.regs
    simp only [logAccess]
    rw [this]
  outside := h.outside
  wf := h.wf
  below := h.below

theorem dataStep_afterChunk {lo hi : Nat} {s : State} {a n : Nat} {b : List Byte} (hn : b.length = n) (h0 : lo ≤ a)
    (h1 : a + n ≤ hi) : DataStep lo hi s (afterChunk s a n b) where
  regs := rfl
  outside := fun y hy => by
    rw [read_afterChunk _ _ hn, if_neg (by omega)]
  wf := fun h => wf_writeBytes _ h _
  below := fun m hm h => below_writeBytes _ h (by simp [xorBytes]; omega)

theorem chunkXor_dataStep {lo hi : Nat} {s : State} {a n : Nat} {b : List Byte} (hn : b.length = n) (h0 : lo ≤ a)
    (h1 : a + n ≤ hi) : (chunkXor s a n b).All (DataStep lo hi s) := by
  obtain ⟨_, _, h⟩ | ⟨_, h⟩ | ⟨_, _, h⟩ := chunkXor_cases s a n b <;> rw [h]
  · exact dataStep_afterChunk hn h0 h1
  · exact dataStep_enterFault (.refl ..) _ _
  · exact dataStep_enterFault (dataStep_logAccess (.refl ..) ..) _ _

theorem DataStep.blockStart_eq {lo hi : Nat} {s t : State} (h : DataStep lo hi s t) : blockStart t = blockStart s := by
  rw [h.regs]; rfl

theorem DataStep.cfg_eq {lo hi : Nat} {s t : State} (h : DataStep lo hi s t) : t.cfg = s.cfg := by rw [h.regs]
theorem DataStep.daddr_eq {lo hi : Nat} {s t : State} (h : DataStep lo hi s t) : t.daddr = s.daddr := by rw [h.regs]

/-- XORB, however it ends, is a step of the data space inside `DADDR + OFF .. DADDR + OFF + BSZ - 1` (R101, R114). -/
theorem xorbBody_dataStep (s : State) : (xorbBody s).All (DataStep (blockStart s) (blockStart s + s.bsz.val) s) := by
  unfold xorbBody
  split
  · exact dataStep_enterFault (.refl ..) _ _
  · split
    · exact .refl ..
    · split
      · exact dataStep_enterFault (.refl ..) _ _
      · have hs := sched_spec s.bsz.val s.cfg.vw
        refine runChunks_all (all := sched s.bsz.val s.cfg.vw) (fun t o w hm hP => ?_) _ _ (fun _ h => h) (.refl ..)
        have hlt := contiguous_mem hs.1 hm
        have hb := hP.blockStart_eq
        exact (chunkXor_dataStep (lo := blockStart s) (hi := blockStart s + s.bsz.val) (blkBytes_length t.blk o w)
          (by omega) (by omega)).mono fun u hu => hP.trans hu

/-! XORM. -/

/-- The accesses of one chunk of XORM, in order (R49). -/
def xormAccesses (dst src : Nat) (o w : Nat) : List Access :=
  [⟨.read, src + o, w⟩, ⟨.read, dst + o, w⟩, ⟨.write, dst + o, w⟩]

theorem xormChunk_ok {s : State} {o w : Nat} (hs : admitted s.cfg (s.saddr.toNat + o) w .read = true)
    (hr : admitted s.cfg (s.daddr.toNat + o) w .read = true) (hw : admitted s.cfg (s.daddr.toNat + o) w .write = true) :
    ∃ t, xormChunk s o w = .ok t ∧ DataOnly s t ∧
      t.accesses = s.accesses ++ xormAccesses s.daddr.toNat s.saddr.toNat o w ∧
      ∀ y, Memory.read t.mem y =
        if s.daddr.toNat + o ≤ y ∧ y < s.daddr.toNat + o + w then
          Memory.read s.mem y ^^^ Memory.read s.mem (s.saddr.toNat + (y - s.daddr.toNat))
        else Memory.read s.mem y := by
  refine ⟨afterChunk (logAccess s .read (s.saddr.toNat + o) w) (s.daddr.toNat + o) w
      (Memory.readBytes s.mem (s.saddr.toNat + o) w),
    by rw [xormChunk, memRead_ok hs]; exact chunkXor_ok (by simpa using hr) (by simpa using hw), rfl,
    by simp [afterChunk, xormAccesses], fun y => ?_⟩
  rw [read_afterChunk _ _ (readBytes_length ..), logAccess_mem]
  by_cases hy : s.daddr.toNat + o ≤ y ∧ y < s.daddr.toNat + o + w
  · rw [if_pos hy, if_pos hy, List.getD_eq_getElem _ _ (by simp; omega)]
    simp only [Memory.readBytes, List.getElem_map, List.getElem_range]
    congr 2
    omega
  · rw [if_neg hy, if_neg hy]

/-- XORM's chunks, each admitted, of two spans that do not overlap: the destination bytes are XORed with the source bytes as they
were at the start (R102). -/
theorem xorm_run {s : State} {n : Nat} {cs : List (Nat × Nat)} {o : Nat} (hc : Contiguous o cs) (hn : o + covered cs ≤ n)
    (hd : spansOverlap s.daddr.toNat s.saddr.toNat n = false)
    (h : ∀ ow ∈ cs, admitted s.cfg (s.saddr.toNat + ow.1) ow.2 .read = true ∧
      admitted s.cfg (s.daddr.toNat + ow.1) ow.2 .read = true ∧ admitted s.cfg (s.daddr.toNat + ow.1) ow.2 .write = true) :
    ∃ t, runChunks xormChunk cs s = .ok t ∧ DataOnly s t ∧
      t.accesses = s.accesses ++ cs.flatMap (fun ow => xormAccesses s.daddr.toNat s.saddr.toNat ow.1 ow.2) ∧
      ∀ y, Memory.read t.mem y =
        if s.daddr.toNat + o ≤ y ∧ y < s.daddr.toNat + o + covered cs then
          Memory.read s.mem y ^^^ Memory.read s.mem (s.saddr.toNat + (y - s.daddr.toNat))
        else Memory.read s.mem y := by
  have hdis : ∀ k, k < n → ∀ j, j < n → s.saddr.toNat + k ≠ s.daddr.toNat + j := by
    intro k hk j hj
    simp only [spansOverlap, Bool.and_eq_false_iff, decide_eq_false_iff_not] at hd
    omega
  obtain ⟨t, ht, hI, hd', ha, hm⟩ := runChunks_ok (chunk := xormChunk)
    (I := fun t => DataOnly s t ∧ ∀ k, k < n → Memory.read t.mem (s.saddr.toNat + k) = Memory.read s.mem (s.saddr.toNat + k))
    (acc := xormAccesses s.daddr.toNat s.saddr.toNat) (dst := s.daddr.toNat)
    (src := fun k => Memory.read s.mem (s.saddr.toNat + k)) (all := cs)
    (fun t a w hI hm => by
      have hcfg := hI.1.cfg_eq
      have hda := hI.1.daddr_eq
      have hsa := hI.1.saddr_eq
      have hlt := contiguous_mem hc hm
      obtain ⟨u, hu, hd2, ha, hmem⟩ := xormChunk_ok (s := t) (o := a) (w := w)
        (by rw [hcfg, hsa]; exact (h _ hm).1) (by rw [hcfg, hda]; exact (h _ hm).2.1) (by rw [hcfg, hda]; exact (h _ hm).2.2)
      rw [hda, hsa] at ha hmem
      refine ⟨u, hu, ⟨hI.1.trans hd2, fun k hk => ?_⟩, hd2, ha, fun y => ?_⟩
      · rw [hmem, if_neg, hI.2 k hk]
        intro hy
        exact hdis k hk (s.saddr.toNat + k - s.daddr.toNat) (by omega) (by omega)
      · rw [hmem]
        split
        · rw [hI.2 _ (by omega)]
        · rfl)
    cs o s hc (fun _ hm => hm) ⟨.refl s, fun _ _ => rfl⟩
  exact ⟨t, ht, hd', ha, hm⟩

/-- XORM, however it ends, is a step of the data space inside `DADDR .. DADDR + DLEN - 1` (R102, R114). -/
theorem xormBody_dataStep (s : State) :
    (xormBody s).All (DataStep s.daddr.toNat (s.daddr.toNat + s.dlen.toNat) s) := by
  unfold xormBody
  split
  · exact .refl ..
  · split
    · exact dataStep_enterFault (.refl ..) _ _
    · split
      · exact dataStep_enterFault (.refl ..) _ _
      · have hs := sched_spec s.dlen.toNat s.cfg.vw
        refine runChunks_all (all := sched s.dlen.toNat s.cfg.vw) (fun t o w hm hP => ?_) _ _ (fun _ h => h) (.refl ..)
        have hlt := contiguous_mem hs.1 hm
        have hb := hP.daddr_eq
        unfold xormChunk
        cases hadm : admitted t.cfg (t.saddr.toNat + o) w .read
        · rw [memRead_refused hadm]
          exact dataStep_enterFault hP _ _
        · rw [memRead_ok hadm]
          exact (chunkXor_dataStep (lo := s.daddr.toNat) (hi := s.daddr.toNat + s.dlen.toNat)
            (readBytes_length t.mem (t.saddr.toNat + o) w) (by rw [logAccess_daddr, hb]; omega) (by rw [logAccess_daddr, hb]; omega)).mono
            fun u hu => (dataStep_logAccess hP ..).trans hu

end Sys2Proof.Machine
end

