-- ==== Sys2Proof/Laws/Keystream.lean ====
section
/-! SUPPORT. The keystream driver: the words of SEED, CTRINC and FOLD, the result of each step's body, the sequencer's arithmetic,
and one iteration of the loop. -/

namespace Sys2Proof.Machine

/-! The words. -/

theorem seedWords_const (x : Vector Word 4) (k : Key) (m : Nonce) (i : Fin 4) : (seedWords x k m)[i.val]'(by omega) = x[i] := by
  simp only [seedWords, Fin.getElem_fin]
  rw [Vector.getElem_append_left (by omega), Vector.getElem_append_left (by omega)]

theorem seedWords_key (c : Vector Word 4) (k : Key) (n : Nonce) (i : Fin 8) : (seedWords c k n)[4 + i.val]'(by omega) = k[i] := by
  simp only [seedWords, Fin.getElem_fin]
  rw [Vector.getElem_append_left (by omega), Vector.getElem_append_right (by omega) (by omega)]
  congr 1
  omega

theorem seedWords_nonce (c : Vector Word 4) (k : Key) (m : Nonce) (i : Fin 4) :
    (seedWords c k m)[12 + i.val]'(by omega) = m[i] := by
  simp only [seedWords, Fin.getElem_fin]
  rw [Vector.getElem_append_right (by omega) (by omega)]
  congr 1
  omega

@[simp] theorem counterAdd_get (b : Block) (n : Nat) (i : Nat) (h : i < 16) :
    (counterAdd b n)[i] = if i < 4 then b[i] + BitVec.ofNat 32 n else b[i] := by
  simp [counterAdd, add32]

@[simp] theorem foldWords_get (x y : Block) (i : Nat) (h : i < 16) : (foldWords x y)[i] = x[i] + y[i] := by
  simp [foldWords, add32]

/-- Counting is by the sum of the block sizes (R23). -/
theorem counterAdd_add (b : Block) (m n : Nat) : counterAdd (counterAdd b m) n = counterAdd b (m + n) := by
  ext i h : 1
  simp only [counterAdd_get]
  split
  · rw [BitVec.add_assoc, BitVec.ofNat_add]
  · rfl

@[simp] theorem counterAdd_zero (b : Block) : counterAdd b 0 = b := by
  ext i h : 1
  simp

/-! The bodies of the steps. -/

theorem keyed_iff {s : State} : keyed s = true ↔ s.kv = 0xFF ∧ s.nv = 0xF := by simp [keyed]

theorem seedBody_ready {s : State} (h : s.kv = 0xFF ∧ s.nv = 0xF) :
    seedBody s =
      .ok (withSequencer (withSeeded (withBase s (seedWords s.cfg.const s.key s.nonce))) 0 s.dlen 0) :=
  if_pos (keyed_iff.mpr h)

theorem seedBody_notReady {s : State} (h : ¬(s.kv = 0xFF ∧ s.nv = 0xF)) : seedBody s = raise s .notReady 0 :=
  if_neg (mt keyed_iff.mp h)

theorem copyBody_ready {s : State} (h : s.seeded = true) : copyBody s = .ok (withBlkv (withBlk s s.base) 0xFFFF) := if_pos h

theorem copyBody_notReady {s : State} (h : s.seeded = false) : copyBody s = raise s .notReady 0 := if_neg (by simp [h])

theorem ctrincBody_ready {s : State} (h : s.seeded = true) :
    ctrincBody s = .ok (withBase s (counterAdd s.base s.bsz.val)) := if_pos h

theorem ctrincBody_notReady {s : State} (h : s.seeded = false) : ctrincBody s = raise s .notReady 0 := if_neg (by simp [h])

theorem foldBody_ready {s : State} (h : s.seeded = true ∧ s.blkv = 0xFFFF) :
    foldBody s = .ok (withBlk s (foldWords s.blk s.base)) := by
  rw [foldBody, h.1, blkReady_iff.mpr h.2]
  rfl

theorem foldBody_notReady {s : State} (h : ¬(s.seeded = true ∧ s.blkv = 0xFFFF)) : foldBody s = raise s .notReady 0 := by
  simp only [foldBody, Bool.and_eq_true, blkReady_iff, h, if_false]

/-! The sequencer's arithmetic. -/

theorem spaceSize_pos (c : Config) : 0 < spaceSize c := Nat.two_pow_pos _

theorem spaceSize_le (c : Config) : spaceSize c ≤ 2 ^ 64 :=
  Nat.pow_le_pow_right (by decide) (by have := c.awOver.isLt; simp only [addrWidth]; omega)

/-- The low `AW` bits of a number, as a number (R27). -/
theorem narrow_toNat (c : Config) (n : Nat) : (narrow c n).toNat = n % spaceSize c := by
  have := Nat.mod_lt n (spaceSize_pos c)
  have := spaceSize_le c
  rw [narrow, BitVec.toNat_ofNat, Nat.mod_eq_of_lt (by omega)]

theorem narrow_lt (c : Config) (n : Nat) : (narrow c n).toNat < spaceSize c := by
  rw [narrow_toNat]
  exact Nat.mod_lt _ (spaceSize_pos c)

/-- ADV adds to OFF without overflow when `OFF + REM` is a byte count (R29, R83). -/
theorem adv_off {s : State} (h : s.bsz.val ≤ s.rem.toNat ∧ s.off.toNat + s.rem.toNat < spaceSize s.cfg) :
    (narrow s.cfg (s.off + BitVec.ofNat 64 s.bsz.val).toNat).toNat = s.off.toNat + s.bsz.val := by
  have := spaceSize_le s.cfg
  rw [narrow_toNat, BitVec.toNat_add, BitVec.toNat_ofNat, Nat.mod_eq_of_lt (a := s.bsz.val) (by omega),
    Nat.mod_eq_of_lt (b := 2 ^ 64) (by omega), Nat.mod_eq_of_lt (by omega)]

/-- ADV subtracts from REM without underflow (R29, R83). -/
theorem adv_rem {s : State} (h : s.bsz.val ≤ s.rem.toNat ∧ s.off.toNat + s.rem.toNat < spaceSize s.cfg) :
    (narrow s.cfg (s.rem - BitVec.ofNat 64 s.bsz.val).toNat).toNat = s.rem.toNat - s.bsz.val := by
  have := spaceSize_le s.cfg
  have := s.bsz.isLt
  have hb : (BitVec.ofNat 64 s.bsz.val).toNat = s.bsz.val := by
    rw [BitVec.toNat_ofNat, Nat.mod_eq_of_lt (by omega)]
  rw [narrow_toNat, BitVec.toNat_sub_of_le (by rw [BitVec.le_def, hb]; exact h.1), hb, Nat.mod_eq_of_lt (by omega)]

/-! One iteration. -/

/-- The state when the XORB of a block begins: BSIZE, COPY, CTRINC, MIX and FOLD are done (R84). -/
def beforeXorb (s : State) : State :=
  withBase
    (withBlkv (withBlk (withSequencer s s.off s.rem (blockSize s.rem.toNat)) (keystreamWords s.base (min 64 s.rem.toNat))) 0xFFFF)
    (counterAdd s.base (min 64 s.rem.toNat))

/-! The fields of that state. They are proved by the lemmas of each update, since comparing whole states compares their blocks. -/

@[simp] theorem beforeXorb_cfg (s : State) : (beforeXorb s).cfg = s.cfg := by simp [beforeXorb]
@[simp] theorem beforeXorb_key (s : State) : (beforeXorb s).key = s.key := by simp [beforeXorb]
@[simp] theorem beforeXorb_nonce (s : State) : (beforeXorb s).nonce = s.nonce := by simp [beforeXorb]
@[simp] theorem beforeXorb_daddr (s : State) : (beforeXorb s).daddr = s.daddr := by simp [beforeXorb]
@[simp] theorem beforeXorb_saddr (s : State) : (beforeXorb s).saddr = s.saddr := by simp [beforeXorb]
@[simp] theorem beforeXorb_dlen (s : State) : (beforeXorb s).dlen = s.dlen := by simp [beforeXorb]
@[simp] theorem beforeXorb_off (s : State) : (beforeXorb s).off = s.off := by simp [beforeXorb]
@[simp] theorem beforeXorb_rem (s : State) : (beforeXorb s).rem = s.rem := by simp [beforeXorb]
@[simp] theorem beforeXorb_kv (s : State) : (beforeXorb s).kv = s.kv := by simp [beforeXorb]
@[simp] theorem beforeXorb_nv (s : State) : (beforeXorb s).nv = s.nv := by simp [beforeXorb]
@[simp] theorem beforeXorb_seeded (s : State) : (beforeXorb s).seeded = s.seeded := by simp [beforeXorb]
@[simp] theorem beforeXorb_blkv (s : State) : (beforeXorb s).blkv = 0xFFFF := by simp [beforeXorb]
@[simp] theorem beforeXorb_busy (s : State) : (beforeXorb s).busy = s.busy := by simp [beforeXorb]
@[simp] theorem beforeXorb_done (s : State) : (beforeXorb s).done = s.done := by simp [beforeXorb]
@[simp] theorem beforeXorb_fault (s : State) : (beforeXorb s).fault = s.fault := by simp [beforeXorb]
@[simp] theorem beforeXorb_cause (s : State) : (beforeXorb s).cause = s.cause := by simp [beforeXorb]
@[simp] theorem beforeXorb_faddr (s : State) : (beforeXorb s).faddr = s.faddr := by simp [beforeXorb]
@[simp] theorem beforeXorb_mem (s : State) : (beforeXorb s).mem = s.mem := by simp [beforeXorb]
@[simp] theorem beforeXorb_accesses (s : State) : (beforeXorb s).accesses = s.accesses := by simp [beforeXorb]
@[simp] theorem beforeXorb_host (s : State) : (beforeXorb s).host = s.host := by simp [beforeXorb]
@[simp] theorem beforeXorb_reads (s : State) : (beforeXorb s).reads = s.reads := by simp [beforeXorb]
@[simp] theorem beforeXorb_bsz (s : State) : (beforeXorb s).bsz = blockSize s.rem.toNat := by simp [beforeXorb]
@[simp] theorem beforeXorb_base (s : State) : (beforeXorb s).base = counterAdd s.base (min 64 s.rem.toNat) := by simp [beforeXorb]
@[simp] theorem beforeXorb_blk (s : State) : (beforeXorb s).blk = keystreamWords s.base (min 64 s.rem.toNat) := by simp [beforeXorb]

@[simp] theorem blockSize_val (n : Nat) : (blockSize n).val = min 64 n := rfl

@[simp] theorem beforeXorb_start (s : State) : blockStart (beforeXorb s) = blockStart s := by simp [blockStart]

/-- One iteration of the loop on a seeded engine is the keystream block, then XORB, then ADV (R84, R88). -/
theorem blockBody_seeded {s : State} (hr : s.rem ≠ 0) (hs : s.seeded = true) :
    blockBody s = (xorbBody (beforeXorb s)).andThen advBody := by
  rw [blockBody, if_neg hr, blockSteps, bsizeBody, andThen_ok, copyBody_ready (by exact hs), andThen_ok,
    ctrincBody_ready (by exact hs), andThen_ok, mixBody_ready rfl, andThen_ok, foldBody_ready (by exact ⟨hs, rfl⟩), andThen_ok]
  rfl

/-- XORB on a fully valid BLK whose block lies in the space and is admitted (R101). -/
theorem xorbBody_ok {s : State} (hv : s.blkv = 0xFFFF) (hin : s.bsz.val = 0 ∨ inSpace s.cfg (blockStart s) s.bsz.val = true)
    (ha : spanAdmitted s.cfg (blockStart s) s.bsz.val = true) :
    ∃ t, xorbBody s = .ok t ∧ DataOnly s t ∧
      t.accesses = s.accesses ++ (sched s.bsz.val s.cfg.vw).flatMap (fun ow => xorbAccesses (blockStart s) ow.1 ow.2) ∧
      ∀ y, Memory.read t.mem y =
        if blockStart s ≤ y ∧ y < blockStart s + s.bsz.val then
          Memory.read s.mem y ^^^ blkByte s.blk (Fin.ofNat 64 (y - blockStart s))
        else Memory.read s.mem y := by
  have hb : (!blkReady s) = false := by rw [blkReady_iff.mpr hv]; rfl
  rw [xorbBody, hb, if_neg Bool.false_ne_true]
  by_cases h0 : s.bsz.val = 0
  · rw [if_pos h0]
    refine ⟨s, rfl, .refl s, by simp [h0, sched_zero], fun y => ?_⟩
    rw [h0, if_neg (by omega)]
  · have hin := hin.resolve_left h0
    simp only [inSpace, decide_eq_true_eq] at hin
    rw [if_neg h0, if_neg (by omega)]
    have hs := sched_spec s.bsz.val s.cfg.vw
    simp only [spanAdmitted, List.all_eq_true, Bool.and_eq_true] at ha
    obtain ⟨t, ht, hd, hacc, hm⟩ := xorb_run hs.1 ha
    rw [hs.2] at hm
    exact ⟨t, ht, hd, hacc, by simpa using hm⟩

/-- XORM on two spans in the space that do not overlap and are admitted (R102). -/
theorem xormBody_ok {s : State}
    (hin : s.dlen.toNat = 0 ∨ inSpace s.cfg s.daddr.toNat s.dlen.toNat = true ∧ inSpace s.cfg s.saddr.toNat s.dlen.toNat = true)
    (ho : spansOverlap s.daddr.toNat s.saddr.toNat s.dlen.toNat = false)
    (hs : sourceAdmitted s.cfg s.saddr.toNat s.dlen.toNat = true)
    (ha : spanAdmitted s.cfg s.daddr.toNat s.dlen.toNat = true) :
    ∃ t, xormBody s = .ok t ∧ DataOnly s t ∧
      t.accesses = s.accesses ++
        (sched s.dlen.toNat s.cfg.vw).flatMap (fun ow => xormAccesses s.daddr.toNat s.saddr.toNat ow.1 ow.2) ∧
      ∀ y, Memory.read t.mem y =
        if s.daddr.toNat ≤ y ∧ y < s.daddr.toNat + s.dlen.toNat then
          Memory.read s.mem y ^^^ Memory.read s.mem (s.saddr.toNat + (y - s.daddr.toNat))
        else Memory.read s.mem y := by
  rw [xormBody]
  by_cases h0 : s.dlen.toNat = 0
  · rw [if_pos h0]
    refine ⟨s, rfl, .refl s, by simp [h0, sched_zero], fun y => ?_⟩
    rw [h0, if_neg (by omega)]
  · have hin := hin.resolve_left h0
    simp only [inSpace, decide_eq_true_eq] at hin
    rw [if_neg h0, if_neg (by omega), ho, if_neg Bool.false_ne_true]
    have hc := sched_spec s.dlen.toNat s.cfg.vw
    simp only [spanAdmitted, sourceAdmitted, List.all_eq_true, Bool.and_eq_true] at ha hs
    obtain ⟨t, ht, hd, hacc, hm⟩ := xorm_run (n := s.dlen.toNat) hc.1 (by rw [hc.2]; omega) ho
      (fun ow h => ⟨hs ow h, ha ow h⟩)
    rw [hc.2] at hm
    exact ⟨t, ht, hd, hacc, by simpa using hm⟩

/-! What no body of a command changes. -/

/-- The registers the host writes, the configuration and what belongs to the host are those of `s` (R18, R19, R20, R27). -/
structure HostSide (s t : State) : Prop where
  key : t.key = s.key
  nonce : t.nonce = s.nonce
  daddr : t.daddr = s.daddr
  saddr : t.saddr = s.saddr
  dlen : t.dlen = s.dlen
  kv : t.kv = s.kv
  nv : t.nv = s.nv
  cfg : t.cfg = s.cfg
  host : t.host = s.host
  reads : t.reads = s.reads

theorem HostSide.refl (s : State) : HostSide s s := ⟨rfl, rfl, rfl, rfl, rfl, rfl, rfl, rfl, rfl, rfl⟩

theorem HostSide.trans {s t u : State} (h : HostSide s t) (h' : HostSide t u) : HostSide s u :=
  ⟨h'.key.trans h.key, h'.nonce.trans h.nonce, h'.daddr.trans h.daddr, h'.saddr.trans h.saddr, h'.dlen.trans h.dlen,
    h'.kv.trans h.kv, h'.nv.trans h.nv, h'.cfg.trans h.cfg, h'.host.trans h.host, h'.reads.trans h.reads⟩

theorem hostSide_enterFault (s : State) (c : Cause) (n : Nat) : HostSide s (enterFault s c n) := by
  constructor <;> simp

theorem hostSide_withBlk (s : State) (b : Block) : HostSide s (withBlk s b) := by constructor <;> simp

theorem hostSide_withBlkv (s : State) (v : BitVec 16) : HostSide s (withBlkv s v) := by constructor <;> simp

theorem hostSide_withBase (s : State) (b : Block) : HostSide s (withBase s b) := by constructor <;> simp

theorem hostSide_withSeeded (s : State) : HostSide s (withSeeded s) := by constructor <;> simp

theorem hostSide_withSequencer (s : State) (o r : Addr) (n : Fin 65) : HostSide s (withSequencer s o r n) := by
  constructor <;> simp

theorem DataStep.hostSide {lo hi : Nat} {s t : State} (h : DataStep lo hi s t) : HostSide s t := by
  rw [h.regs]
  exact ⟨rfl, rfl, rfl, rfl, rfl, rfl, rfl, rfl, rfl, rfl⟩

theorem nopBody_hostSide (s : State) : (nopBody s).All (HostSide s) := .refl s

theorem seedBody_hostSide (s : State) : (seedBody s).All (HostSide s) := by
  unfold seedBody
  split
  · exact ((hostSide_withBase ..).trans (hostSide_withSeeded ..)).trans (hostSide_withSequencer ..)
  · exact hostSide_enterFault ..

theorem bsizeBody_hostSide (s : State) : (bsizeBody s).All (HostSide s) := hostSide_withSequencer ..

theorem copyBody_hostSide (s : State) : (copyBody s).All (HostSide s) := by
  unfold copyBody
  split
  · exact (hostSide_withBlk ..).trans (hostSide_withBlkv ..)
  · exact hostSide_enterFault ..

theorem ctrincBody_hostSide (s : State) : (ctrincBody s).All (HostSide s) := by
  unfold ctrincBody
  split
  · exact hostSide_withBase ..
  · exact hostSide_enterFault ..

theorem mixBody_hostSide (s : State) : (mixBody s).All (HostSide s) := by
  unfold mixBody
  split
  · exact hostSide_withBlk ..
  · exact hostSide_enterFault ..

theorem foldBody_hostSide (s : State) : (foldBody s).All (HostSide s) := by
  unfold foldBody
  split
  · exact hostSide_withBlk ..
  · exact hostSide_enterFault ..

theorem xorbBody_hostSide (s : State) : (xorbBody s).All (HostSide s) := (xorbBody_dataStep s).mono fun _ h => h.hostSide

theorem advBody_hostSide (s : State) : (advBody s).All (HostSide s) := hostSide_withSequencer ..

theorem xormBody_hostSide (s : State) : (xormBody s).All (HostSide s) := (xormBody_dataStep s).mono fun _ h => h.hostSide

/-- A property of pairs of states that each of the seven steps keeps is kept by a whole iteration (R84). -/
theorem blockBody_all {R : State → State → Prop} (hrefl : ∀ s, R s s) (htrans : ∀ s t u, R s t → R t u → R s u)
    (hbsize : ∀ s, (bsizeBody s).All (R s)) (hcopy : ∀ s, (copyBody s).All (R s)) (hctrinc : ∀ s, (ctrincBody s).All (R s))
    (hmix : ∀ s, (mixBody s).All (R s)) (hfold : ∀ s, (foldBody s).All (R s)) (hxorb : ∀ s, (xorbBody s).All (R s))
    (hadv : ∀ s, (advBody s).All (R s)) (s : State) : (blockBody s).All (R s) := by
  have next {g : State → Flow} (hg : ∀ t, (g t).All (R t)) (t : State) (h : R s t) : (g t).All (R s) :=
    (hg t).mono fun u hu => htrans s t u h hu
  unfold blockBody blockSteps
  split
  · exact hrefl s
  · exact ((((((hbsize s).andThen (next hcopy)).andThen (next hctrinc)).andThen (next hmix)).andThen (next hfold)).andThen
      (next hxorb)).andThen (next hadv)

/-- A property of pairs of states that an iteration keeps is kept by the loop of APPLY (R85). -/
theorem blockLoop_all {R : State → State → Prop} (hrefl : ∀ s, R s s) (htrans : ∀ s t u, R s t → R t u → R s u)
    (hblock : ∀ s, (blockBody s).All (R s)) : ∀ n s, (blockLoop n s).All (R s)
  | 0, s => hrefl s
  | n + 1, s => by
    unfold blockLoop
    split
    · exact hrefl s
    · exact (hblock s).andThen fun t ht => (blockLoop_all hrefl htrans hblock n t).mono fun u hu => htrans s t u ht hu

theorem blockBody_hostSide (s : State) : (blockBody s).All (HostSide s) :=
  blockBody_all HostSide.refl (fun _ _ _ => HostSide.trans) bsizeBody_hostSide copyBody_hostSide ctrincBody_hostSide
    mixBody_hostSide foldBody_hostSide xorbBody_hostSide advBody_hostSide s

theorem applyBody_hostSide (s : State) : (applyBody s).All (HostSide s) :=
  (seedBody_hostSide s).andThen fun t ht =>
    (blockLoop_all HostSide.refl (fun _ _ _ => HostSide.trans) blockBody_hostSide _ t).mono fun _ hu => ht.trans hu

end Sys2Proof.Machine
end

