-- ==== Sys2Proof/Laws/Body.lean ====
section
/-! SUPPORT. The bodies of all twelve commands: `exec` is the framing of a body (R59), what every body leaves alone, and the status
it leaves (R31, R113). -/

namespace Sys2Proof.Machine

/-- The body of a command. -/
def bodyOf : Instr → State → Flow
  | .nop => nopBody
  | .seed => seedBody
  | .bsize => bsizeBody
  | .copy => copyBody
  | .ctrinc => ctrincBody
  | .mix => mixBody
  | .fold => foldBody
  | .xorb => xorbBody
  | .adv => advBody
  | .block => blockBody
  | .apply => applyBody
  | .xorm => xormBody

theorem exec_eq (i : Instr) (s : State) : exec i s = .next (command (bodyOf i) s) := by cases i <;> rfl

/-- A command given to a ready engine is its body, started and settled (R59). -/
theorem exec_ready {i : Instr} {s : State} (h : s.fault = false ∧ s.busy = false) :
    exec i s = .next (settle (bodyOf i (startCommand s))) := by
  rw [exec_eq, command_ready h]

theorem exec_gated (i : Instr) {s : State} (h : gated s = true) : exec i s = .next s := by
  rw [exec_eq, command_gated h]

theorem bodyOf_hostSide (i : Instr) (s : State) : (bodyOf i s).All (HostSide s) := by
  cases i
  · exact nopBody_hostSide s
  · exact seedBody_hostSide s
  · exact bsizeBody_hostSide s
  · exact copyBody_hostSide s
  · exact ctrincBody_hostSide s
  · exact mixBody_hostSide s
  · exact foldBody_hostSide s
  · exact xorbBody_hostSide s
  · exact advBody_hostSide s
  · exact blockBody_hostSide s
  · exact applyBody_hostSide s
  · exact xormBody_hostSide s

/-! The status. -/

/-- The status bits of `t` are those of `s`. -/
structure SameStatus (s t : State) : Prop where
  fault : t.fault = s.fault
  busy : t.busy = s.busy
  done : t.done = s.done
  cause : t.cause = s.cause
  faddr : t.faddr = s.faddr
  cfg : t.cfg = s.cfg

/-- `t` has just taken a fault in a command that began in `s` (R113). -/
structure TookFault (s t : State) : Prop where
  fault : t.fault = true
  busy : t.busy = false
  done : t.done = s.done
  cause : t.cause.isSome = true
  faddr : t.faddr.toNat < spaceSize s.cfg
  cfg : t.cfg = s.cfg

/-- A flow keeps the status, or has taken a fault. -/
def Flow.Status (s : State) : Flow → Prop
  | .ok t => SameStatus s t
  | .raised t => TookFault s t

theorem SameStatus.refl (s : State) : SameStatus s s := ⟨rfl, rfl, rfl, rfl, rfl, rfl⟩

theorem SameStatus.trans {s t u : State} (h : SameStatus s t) (h' : SameStatus t u) : SameStatus s u :=
  ⟨h'.fault.trans h.fault, h'.busy.trans h.busy, h'.done.trans h.done, h'.cause.trans h.cause, h'.faddr.trans h.faddr,
    h'.cfg.trans h.cfg⟩

theorem TookFault.from {s t u : State} (h : SameStatus s t) (h' : TookFault t u) : TookFault s u :=
  ⟨h'.fault, h'.busy, h'.done.trans h.done, h'.cause, by rw [← h.cfg]; exact h'.faddr, h'.cfg.trans h.cfg⟩

theorem Flow.Status.from {s t : State} {f : Flow} (h : SameStatus s t) (hf : f.Status t) : f.Status s := by
  cases f with
  | ok u => exact SameStatus.trans h hf
  | raised u => exact TookFault.from h hf

theorem Flow.Status.andThen {s : State} {f : Flow} {g : State → Flow} (hf : f.Status s) (hg : ∀ t, (g t).Status t) :
    (f.andThen g).Status s := by
  cases f with
  | ok t => exact (hg t).from hf
  | raised t => exact hf

theorem status_raise (s : State) (c : Cause) (n : Nat) : (raise s c n).Status s := ⟨rfl, rfl, rfl, rfl, narrow_lt .., rfl⟩

theorem sameStatus_withBlk (s : State) (b : Block) : SameStatus s (withBlk s b) := by constructor <;> simp

theorem sameStatus_withBase (s : State) (b : Block) : SameStatus s (withBase s b) := by constructor <;> simp

theorem sameStatus_withSequencer (s : State) (o r : Addr) (n : Fin 65) : SameStatus s (withSequencer s o r n) := by
  constructor <;> simp

theorem DataOnly.sameStatus {s t : State} (h : DataOnly s t) : SameStatus s t := by
  rw [h]
  exact ⟨rfl, rfl, rfl, rfl, rfl, rfl⟩

theorem chunkXor_status (s : State) (a n : Nat) (b : List Byte) : (chunkXor s a n b).Status s := by
  obtain ⟨_, _, h⟩ | ⟨_, h⟩ | ⟨_, _, h⟩ := chunkXor_cases s a n b <;> rw [h]
  · exact (dataOnly_afterChunk ..).sameStatus
  · exact status_raise ..
  · exact (status_raise ..).from (dataOnly_logAccess ..).sameStatus

theorem xormChunk_status (s : State) (o w : Nat) : (xormChunk s o w).Status s := by
  unfold xormChunk
  cases h : admitted s.cfg (s.saddr.toNat + o) w .read
  · rw [memRead_refused h]
    exact status_raise ..
  · rw [memRead_ok h]
    exact (chunkXor_status ..).from (dataOnly_logAccess ..).sameStatus

theorem runChunks_status {chunk : State → Nat → Nat → Flow} (h : ∀ s o w, (chunk s o w).Status s) :
    ∀ cs s, (runChunks chunk cs s).Status s
  | [], s => .refl s
  | (o, w) :: cs, s => (h s o w).andThen (runChunks_status h cs)

theorem seedBody_status (s : State) : (seedBody s).Status s := by
  by_cases h : s.kv = 0xFF ∧ s.nv = 0xF
  · rw [seedBody_ready h]
    exact ⟨rfl, rfl, rfl, rfl, rfl, rfl⟩
  · rw [seedBody_notReady h]
    exact status_raise ..

theorem copyBody_status (s : State) : (copyBody s).Status s := by
  cases h : s.seeded
  · rw [copyBody_notReady h]
    exact status_raise ..
  · rw [copyBody_ready h]
    exact ⟨rfl, rfl, rfl, rfl, rfl, rfl⟩

theorem ctrincBody_status (s : State) : (ctrincBody s).Status s := by
  cases h : s.seeded
  · rw [ctrincBody_notReady h]
    exact status_raise ..
  · rw [ctrincBody_ready h]
    exact sameStatus_withBase ..

theorem mixBody_status (s : State) : (mixBody s).Status s := by
  by_cases h : s.blkv = 0xFFFF
  · rw [mixBody_ready h]
    exact sameStatus_withBlk ..
  · rw [mixBody_notReady h]
    exact status_raise ..

theorem foldBody_status (s : State) : (foldBody s).Status s := by
  by_cases h : s.seeded = true ∧ s.blkv = 0xFFFF
  · rw [foldBody_ready h]
    exact sameStatus_withBlk ..
  · rw [foldBody_notReady h]
    exact status_raise ..

theorem xorbBody_status (s : State) : (xorbBody s).Status s := by
  unfold xorbBody
  split
  · exact status_raise ..
  · split
    · exact SameStatus.refl s
    · split
      · exact status_raise ..
      · exact runChunks_status (fun s o w => chunkXor_status ..) _ s

theorem xormBody_status (s : State) : (xormBody s).Status s := by
  unfold xormBody
  split
  · exact SameStatus.refl s
  · split
    · exact status_raise ..
    · split
      · exact status_raise ..
      · exact runChunks_status xormChunk_status _ s

theorem blockBody_status (s : State) : (blockBody s).Status s := by
  unfold blockBody blockSteps
  split
  · exact SameStatus.refl s
  · have hb : (bsizeBody s).Status s := sameStatus_withSequencer ..
    exact (((((hb.andThen copyBody_status).andThen ctrincBody_status).andThen mixBody_status).andThen
      foldBody_status).andThen xorbBody_status).andThen fun t => sameStatus_withSequencer ..

theorem blockLoop_status : ∀ n s, (blockLoop n s).Status s
  | 0, s => .refl s
  | n + 1, s => by
    unfold blockLoop
    split
    · exact SameStatus.refl s
    · exact (blockBody_status s).andThen (blockLoop_status n)

/-- The status of a command's body, whichever command it is: kept if the body goes through, a fault's if not (R31, R113). -/
theorem bodyOf_status (i : Instr) (s : State) : (bodyOf i s).Status s := by
  cases i
  · exact SameStatus.refl s
  · exact seedBody_status s
  · exact sameStatus_withSequencer ..
  · exact copyBody_status s
  · exact ctrincBody_status s
  · exact mixBody_status s
  · exact foldBody_status s
  · exact xorbBody_status s
  · exact sameStatus_withSequencer ..
  · exact blockBody_status s
  · exact (seedBody_status s).andThen fun t => blockLoop_status _ t
  · exact xormBody_status s

/-! What a body that goes through has found. -/

/-- If a run of chunks goes through, what each chunk that goes through shows holds of them all. -/
theorem runChunks_inv {chunk : State → Nat → Nat → Flow} {P : Nat → Nat → Prop} {I : State → Prop}
    (h : ∀ s o w t, I s → chunk s o w = .ok t → P o w ∧ I t) :
    ∀ cs s t, I s → runChunks chunk cs s = .ok t → ∀ ow ∈ cs, P ow.1 ow.2
  | [], _, _, _, _ => by simp
  | (o, w) :: cs, s, t, hI, ht => by
    rw [runChunks] at ht
    cases hc : chunk s o w with
    | raised u =>
      rw [hc] at ht
      cases ht
    | ok u =>
      rw [hc, andThen_ok] at ht
      obtain ⟨hP, hu⟩ := h s o w u hI hc
      intro ow hm
      rcases List.mem_cons.mp hm with rfl | hm
      · exact hP
      · exact runChunks_inv h cs u t hu ht ow hm

/-- An XORB that goes through found BLK valid and its span in the space and admitted (R101). -/
theorem xorbBody_inv {s t : State} (h : xorbBody s = .ok t) :
    s.blkv = 0xFFFF ∧ (s.bsz.val = 0 ∨ inSpace s.cfg (blockStart s) s.bsz.val = true) ∧
      spanAdmitted s.cfg (blockStart s) s.bsz.val = true := by
  unfold xorbBody at h
  split at h
  · cases h
  · rename_i hb
    refine ⟨blkReady_iff.mp (by simpa using hb), ?_⟩
    split at h
    · rename_i h0
      exact ⟨.inl h0, by rw [h0]; simp [spanAdmitted, sched_zero]⟩
    · split at h
      · cases h
      · refine ⟨.inr (by simp only [inSpace, decide_eq_true_eq]; omega), ?_⟩
        simp only [spanAdmitted, List.all_eq_true, Bool.and_eq_true]
        refine runChunks_inv (chunk := xorbChunk) (P := fun o w => admitted s.cfg (blockStart s + o) w .read = true ∧
          admitted s.cfg (blockStart s + o) w .write = true) (I := DataOnly s) ?_ _ s t (.refl s) h
        intro u o w v hu hv
        unfold xorbChunk at hv
        obtain ⟨h1, h2, h3⟩ | ⟨_, h3⟩ | ⟨_, _, h3⟩ := chunkXor_cases u (blockStart u + o) w (blkBytes u.blk o w) <;>
          rw [h3] at hv <;> cases hv
        rw [hu.cfg_eq, hu.blockStart_eq] at h1 h2
        exact ⟨⟨h1, h2⟩, hu.trans (dataOnly_afterChunk ..)⟩

/-- An XORM that goes through found its spans in the space, not overlapping and admitted (R102). -/
theorem xormBody_inv {s t : State} (h : xormBody s = .ok t) :
    (s.dlen.toNat = 0 ∨ inSpace s.cfg s.daddr.toNat s.dlen.toNat = true ∧ inSpace s.cfg s.saddr.toNat s.dlen.toNat = true) ∧
      spansOverlap s.daddr.toNat s.saddr.toNat s.dlen.toNat = false ∧
      sourceAdmitted s.cfg s.saddr.toNat s.dlen.toNat = true ∧ spanAdmitted s.cfg s.daddr.toNat s.dlen.toNat = true := by
  unfold xormBody at h
  split at h
  · rename_i h0
    rw [h0]
    exact ⟨.inl rfl, by simp [spansOverlap], by simp [sourceAdmitted, sched_zero], by simp [spanAdmitted, sched_zero]⟩
  · split at h
    · cases h
    · rename_i hin
      split at h
      · cases h
      · rename_i ho
        have key := runChunks_inv (chunk := xormChunk) (P := fun o w => admitted s.cfg (s.saddr.toNat + o) w .read = true ∧
          admitted s.cfg (s.daddr.toNat + o) w .read = true ∧ admitted s.cfg (s.daddr.toNat + o) w .write = true)
          (I := DataOnly s) ?_ _ s t (.refl s) h
        · refine ⟨.inr ?_, by simpa using ho, ?_, ?_⟩
          · simp only [inSpace, decide_eq_true_eq]
            omega
          · simp only [sourceAdmitted, List.all_eq_true]
            exact fun ow hm => (key ow hm).1
          · simp only [spanAdmitted, List.all_eq_true, Bool.and_eq_true]
            exact fun ow hm => (key ow hm).2
        · intro u o w v hu hv
          unfold xormChunk at hv
          cases ha : admitted u.cfg (u.saddr.toNat + o) w .read
          · rw [memRead_refused ha] at hv
            cases hv
          · rw [memRead_ok ha] at hv
            obtain ⟨h1, h2, h3⟩ | ⟨_, h3⟩ | ⟨_, _, h3⟩ :=
              chunkXor_cases (logAccess u .read (u.saddr.toNat + o) w)
                ((logAccess u .read (u.saddr.toNat + o) w).daddr.toNat + o) w
                (Memory.readBytes u.mem (u.saddr.toNat + o) w) <;> rw [h3] at hv <;> cases hv
            simp only [logAccess_cfg, logAccess_daddr] at h1 h2
            rw [hu.cfg_eq, hu.daddr_eq] at h1 h2
            rw [hu.cfg_eq, hu.saddr_eq] at ha
            exact ⟨⟨ha, h1, h2⟩, hu.trans ((dataOnly_logAccess ..).trans (dataOnly_afterChunk ..))⟩

end Sys2Proof.Machine
end

