-- ==== Sys2Proof/Laws/HostPort.lean ====
section
/-! SUPPORT. The register interface: what the decoder answers, which offset reaches which register, and what a host step does. -/

namespace Sys2Proof

/-- What the decoder answers for a word, with the range the word lies in (R60, R62). -/
theorem decode_cases (w : Word) :
    (∃ i, decode w = .ok i ∧ w = encode i ∧ w.toNat < 12) ∨
    (decode w = .error .reserved ∧ 12 ≤ w.toNat ∧ w.toNat < 16) ∨
    (decode w = .error .malformed ∧ 16 ≤ w.toNat) := by
  by_cases h : w.toNat < 16
  · obtain ⟨k, hk, rfl⟩ : ∃ k, k < 16 ∧ w = BitVec.ofNat 32 k := ⟨w.toNat, h, by simp⟩
    have table : ∀ k : Nat, k < 16 →
        (∃ i ∈ [Instr.nop, .seed, .bsize, .copy, .ctrinc, .mix, .fold, .xorb, .adv, .block, .apply, .xorm],
          decode (BitVec.ofNat 32 k) = .ok i ∧ BitVec.ofNat 32 k = encode i ∧ (BitVec.ofNat 32 k).toNat < 12) ∨
        (decode (BitVec.ofNat 32 k) = .error .reserved ∧ 12 ≤ (BitVec.ofNat 32 k).toNat ∧
          (BitVec.ofNat 32 k).toNat < 16) := by decide
    rcases table k hk with ⟨i, -, hi⟩ | hi
    · exact .inl ⟨i, hi⟩
    · exact .inr (.inl hi)
  · refine .inr (.inr ⟨if_neg fun hz => ?_, by omega⟩)
    have := congrArg BitVec.toNat hz
    simp [zeroField, Nat.shiftRight_eq_div_pow] at this
    omega

namespace Machine

/-! Offsets. -/

theorem ofSlot_slot (r : Reg) : Reg.ofSlot r.slot = some r := by
  cases r <;> first
    | rfl
    | (rename_i i; revert i; decide)

theorem ofSlot_lt {k : Nat} (h : k < 64) : ∃ r, Reg.ofSlot k = some r ∧ r.slot = k := by
  have table : ∀ k, k < 64 → (Reg.ofSlot k).map Reg.slot = some k := by decide
  exact Option.map_eq_some_iff.mp (table k h)

theorem ofSlot_ge {k : Nat} (h : 64 ≤ k) : Reg.ofSlot k = none := by
  unfold Reg.ofSlot
  rw [if_pos (by omega), dif_neg (by omega)]

/-- A register's offset reaches the register (R55). -/
@[simp] theorem ofOffset_offset (r : Reg) : Reg.ofOffset r.offset = some r := by
  rw [Reg.ofOffset, Reg.offset, if_pos (by omega), Nat.mul_div_cancel_left _ (by decide), ofSlot_slot]

/-- No other offset reaches it (R55). -/
theorem offset_of_ofOffset {o : Nat} {r : Reg} (h : Reg.ofOffset o = some r) : o = r.offset := by
  unfold Reg.ofOffset at h
  split at h
  · by_cases hk : o / 4 < 64
    · obtain ⟨q, hq, hs⟩ := ofSlot_lt hk
      rw [hq] at h
      cases h
      rw [Reg.offset]
      omega
    · rw [ofSlot_ge (by omega)] at h
      cases h
  · cases h

@[simp] theorem busReg_offset (r : Reg) : busReg r.offset 4 = some r := ofOffset_offset r

theorem busReg_some {o n : Nat} {r : Reg} (h : busReg o n = some r) : o = r.offset ∧ n = 4 := by
  unfold busReg at h
  split at h
  · exact ⟨offset_of_ofOffset h, ‹_›⟩
  · cases h

/-! Host steps. -/

/-- A step whose host step is a write of a register is that write (R105). -/
theorem step_write {s : State} {r : Reg} {v : Word} {rest : List HostStep} (h : s.host = .write r.offset 4 v :: rest) :
    step s = writeReg r v { s with host := rest } := by
  simp only [step, hostTurn, h, hostStep, busReg_offset]

theorem writeReg_gated {r : Reg} {v : Word} {s : State} (h : gated s = true) : writeReg r v s = .next s := by
  unfold writeReg
  rw [if_pos h]

theorem writeReg_cmd {v : Word} {s : State} (h : gated s = false) : writeReg .cmd v s = writeCmd v s := by
  unfold writeReg
  rw [if_neg (by simp [h])]

theorem writeReg_other {r : Reg} {v : Word} {s : State} (h : gated s = false) (hr : r ≠ .cmd) :
    writeReg r v s = .next (storeReg r v s) := by
  unfold writeReg
  rw [if_neg (by simp [h])]
  cases r <;> first
    | rfl
    | exact absurd rfl hr

/-- Writing a word's validity bit sets that bit (R33). -/
theorem setBit_get {n : Nat} (m : BitVec n) (i : Nat) {j : Nat} (hj : j < n) :
    (setBit m i).getLsbD j = (m.getLsbD j || decide (j = i)) := by
  simp only [setBit, BitVec.getLsbD_or, BitVec.getLsbD_twoPow]
  by_cases h : j = i
  · subst h; simp [hj]
  · simp [h, Ne.symm h]

theorem withLo_toNat (c : Config) (x : Addr) (v : Word) :
    (withLo c x v).toNat = (x.toNat / 2 ^ 32 * 2 ^ 32 + v.toNat) % 2 ^ addrWidth c := by
  rw [withLo, narrow_toNat, spaceSize, BitVec.toNat_append, hiHalf]
  congr 1
  rw [← Nat.shiftLeft_add_eq_or_of_lt v.isLt]
  simp [Nat.shiftRight_eq_div_pow, Nat.shiftLeft_eq]
  omega

theorem withHi_toNat (c : Config) (x : Addr) (v : Word) :
    (withHi c x v).toNat = (v.toNat * 2 ^ 32 + x.toNat % 2 ^ 32) % 2 ^ addrWidth c := by
  rw [withHi, narrow_toNat, spaceSize, BitVec.toNat_append, loHalf]
  congr 1
  rw [← Nat.shiftLeft_add_eq_or_of_lt (BitVec.isLt _)]
  simp [Nat.shiftLeft_eq]

/-- What a step that answers a next state did: nothing pending, a reset, a read, a write ignored, a register stored, a command, or
a word that is no command (R59, R105, R106, R124). -/
theorem step_cases {s t : State} (h : step s = .next t) :
    (s.host = [] ∧ t = s) ∨
    (∃ rest, s.host = .reset :: rest ∧ t = resetEngine { s with host := rest }) ∨
    (∃ (r : Reg) (rest : List HostStep), s.host = .read r.offset 4 :: rest ∧
      t = { s with host := rest, reads := s.reads ++ [readReg r s] }) ∨
    (∃ (r : Reg) (v : Word) (rest : List HostStep), s.host = .write r.offset 4 v :: rest ∧ gated s = true ∧
      t = { s with host := rest }) ∨
    (∃ (r : Reg) (v : Word) (rest : List HostStep), s.host = .write r.offset 4 v :: rest ∧ gated s = false ∧ r ≠ .cmd ∧
      t = storeReg r v { s with host := rest }) ∨
    (∃ (i : Instr) (rest : List HostStep), s.host = .write 0x000 4 (encode i) :: rest ∧ gated s = false ∧
      exec i { s with host := rest } = .next t) ∨
    (∃ (w : Word) (rest : List HostStep), s.host = .write 0x000 4 w :: rest ∧ gated s = false ∧ 12 ≤ w.toNat ∧
      t = command (fun u => raise u .illegal w.toNat) { s with host := rest }) := by
  unfold step hostTurn at h
  split at h
  · cases h
    exact .inl ⟨‹_›, rfl⟩
  · rename_i a rest hh
    cases a with
    | reset =>
      cases h
      exact .inr (.inl ⟨rest, hh, rfl⟩)
    | read o n =>
      simp only [hostStep] at h
      split at h
      · rename_i r hr
        obtain ⟨rfl, rfl⟩ := busReg_some hr
        unfold readStep at h
        split at h
        · cases h
        · cases h
          exact .inr (.inr (.inl ⟨r, rest, hh, by cases r <;> rfl⟩))
      · cases h
    | write o n v =>
      simp only [hostStep] at h
      split at h
      · rename_i r hr
        obtain ⟨rfl, rfl⟩ := busReg_some hr
        cases hg : gated s
        · have hg' : gated { s with host := rest } = false := hg
          by_cases hc : r = .cmd
          · subst hc
            rw [writeReg_cmd hg', writeCmd] at h
            rcases decode_cases v with ⟨i, hd, he, _⟩ | ⟨hd, hn, _⟩ | ⟨hd, hn⟩
            · rw [hd] at h
              exact .inr (.inr (.inr (.inr (.inr (.inl ⟨i, rest, by rw [← he]; exact hh, rfl, h⟩)))))
            · rw [hd] at h
              cases h
              exact .inr (.inr (.inr (.inr (.inr (.inr ⟨v, rest, hh, rfl, hn, rfl⟩)))))
            · rw [hd] at h
              cases h
              exact .inr (.inr (.inr (.inr (.inr (.inr ⟨v, rest, hh, rfl, by omega, rfl⟩)))))
          · rw [writeReg_other hg' hc] at h
            cases h
            exact .inr (.inr (.inr (.inr (.inl ⟨r, v, rest, hh, rfl, hc, rfl⟩))))
        · rw [writeReg_gated (by exact hg)] at h
          cases h
          exact .inr (.inr (.inr (.inl ⟨r, v, rest, hh, rfl, rfl⟩)))
      · cases h

end Machine

end Sys2Proof
end

