-- ==== Sys2Proof/Laws/PerInstr.lean ====
section
/-! SUPPORT. Facts about every command as syntax, one lemma per constructor (R58, R60, R62). -/

namespace Sys2Proof.Laws.Encoding

/-- A command's word is its opcode below 28 zero bits, it is one of the twelve numbers 0 to 11, and it decodes to the command. -/
def Statement (i : Instr) : Prop :=
  zeroField (encode i) = 0 ∧ opField (encode i) = opcode i ∧ (encode i).toNat < 12 ∧ decode (encode i) = .ok i ∧
    i.wellFormed = true

theorem nop : Statement .nop := by unfold Statement; decide
theorem seed : Statement .seed := by unfold Statement; decide
theorem bsize : Statement .bsize := by unfold Statement; decide
theorem copy : Statement .copy := by unfold Statement; decide
theorem ctrinc : Statement .ctrinc := by unfold Statement; decide
theorem mix : Statement .mix := by unfold Statement; decide
theorem fold : Statement .fold := by unfold Statement; decide
theorem xorb : Statement .xorb := by unfold Statement; decide
theorem adv : Statement .adv := by unfold Statement; decide
theorem block : Statement .block := by unfold Statement; decide
theorem apply : Statement .apply := by unfold Statement; decide
theorem xorm : Statement .xorm := by unfold Statement; decide

end Sys2Proof.Laws.Encoding
end

