-- ==== Sys2Proof/Tests/Slice0.lean ====
section
/-! SUPPORT. Tests of the model against the vectors of spec/95_test_vectors.md (named V-...), a smoke test of the well-formedness
checks, and a witness for the hypotheses of each statement. -/

namespace Sys2Proof.Tests

set_option Elab.async false

open Sys2Proof.Machine

/-! The test values of 95_test_vectors.md, section 1. -/

def tc : Vector Word 4 := #v[0x01234567, 0x89ABCDEF, 0xFEDCBA98, 0x76543210]

def tk : Key :=
  #v[0x03020100, 0x07060504, 0x0B0A0908, 0x0F0E0D0C, 0x13121110, 0x17161514, 0x1B1A1918, 0x1F1E1D1C]

def tn : Nonce := #v[0xA3A2A1A0, 0xA7A6A5A4, 0xABAAA9A8, 0xAFAEADAC]

def tb : Block :=
  #v[0x01234567, 0x89ABCDEF, 0xFEDCBA98, 0x76543210, 0x03020100, 0x07060504, 0x0B0A0908, 0x0F0E0D0C,
     0x13121110, 0x17161514, 0x1B1A1918, 0x1F1E1D1C, 0xA3A2A1A0, 0xA7A6A5A4, 0xABAAA9A8, 0xAFAEADAC]

/-- A configuration with the test constants: `AW` is 7 more than `aw`. -/
def config (vw : VecWidth) (aw : Fin 58) (ws : List Window) : Config := ⟨tc, vw, aw, ws⟩

/-- After reset: the default `VW = 64` and `AW = 64`, the test constants, a memory that admits every access. -/
def fresh : State := { State.reset with cfg := { const := tc, windows := [openWindow (2 ^ 64)] } }

/-- `LOADKEY TK; LOADNONCE TN; SETDST 0x1000; SETLEN n`. -/
def keyed (n : Nat) : State :=
  { fresh with key := tk, nonce := tn, kv := 0xFF, nv := 0xF, daddr := 0x1000, dlen := BitVec.ofNat 64 n }

/-- The same, and `SEED`. -/
def seeded (n : Nat) : State := { keyed n with base := tb, seeded := true, rem := BitVec.ofNat 64 n, done := true }

/-- A fully valid BLK. -/
def withWords (s : State) (b : Block) : State := { s with blk := b, blkv := 0xFFFF }

/-- `SETDST d; SETSRC a; SETLEN n`. -/
def spans (d a n : Nat) : State :=
  { fresh with daddr := BitVec.ofNat 64 d, saddr := BitVec.ofNat 64 a, dlen := BitVec.ofNat 64 n }

/-- A platform with the windows `ws` and the width `vw`. -/
def onPlatform (s : State) (vw : VecWidth) (ws : List Window) : State := { s with cfg := config vw 57 ws }

/-- A faulted engine. -/
def broken (s : State) : State := { s with fault := true, cause := some .notReady }

/-- The host's pending steps. -/
def pending (s : State) (hs : List HostStep) : State := { s with host := hs }

/-- The state a command leaves. -/
def after (i : Instr) (s : State) : State :=
  match exec i s with
  | .next t => t
  | .fault _ => s
  | .refused _ => s

/-- The state some steps leave. -/
def stepped : Nat → State → State
  | 0, s => s
  | n + 1, s =>
    match step s with
    | .next t => stepped n t
    | .fault _ => s
    | .refused _ => s

/-- Every command answers a next state, so `after` is what `exec` answers. -/
theorem exec_after (i : Instr) (s : State) : exec i s = .next (after i s) := by cases i <;> rfl

/-- The step answers a next state. -/
def goesOn (s : State) : Bool :=
  match step s with
  | .next _ => true
  | .fault _ => false
  | .refused _ => false

theorem step_stepped {s : State} (h : goesOn s = true) : step s = .next (stepped 1 s) := by
  unfold goesOn at h
  unfold stepped
  cases hs : step s <;> rw [hs] at h
  · rfl
  · cases h
  · cases h

/-- The bytes at `a .. a+n-1`, as numbers. -/
def bytes (s : State) (a n : Nat) : List Nat := (Memory.readBytes s.mem a n).map BitVec.toNat

/-- The words of a block, as numbers. -/
def words (b : Block) : List Nat := b.toList.map BitVec.toNat

/-! Well-formedness: one ill-formed term for each check of rule R56. -/

theorem test_narrow_access_ill_formed : HostStep.wellFormed (.write 0x040 2 7) = false := by decide
theorem test_misaligned_access_ill_formed : HostStep.wellFormed (.read 0x042 4) = false := by decide
theorem test_out_of_range_access_ill_formed : HostStep.wellFormed (.read 0x100 4) = false := by decide
theorem test_register_access_well_formed : HostStep.wellFormed (.write 0x0FC 4 7) = true := by decide
theorem test_commands_well_formed : Instr.wellFormed .apply = true := by decide

/-! Decoding: each command word written out bit by bit, 28 zero bits above the opcode (R58, R60). -/

theorem test_decode_nop : decode 0b00000000000000000000000000000000 = .ok .nop := by decide
theorem test_decode_seed : decode 0b00000000000000000000000000000001 = .ok .seed := by decide
theorem test_decode_bsize : decode 0b00000000000000000000000000000010 = .ok .bsize := by decide
theorem test_decode_copy : decode 0b00000000000000000000000000000011 = .ok .copy := by decide
theorem test_decode_ctrinc : decode 0b00000000000000000000000000000100 = .ok .ctrinc := by decide
theorem test_decode_mix : decode 0b00000000000000000000000000000101 = .ok .mix := by decide
theorem test_decode_fold : decode 0b00000000000000000000000000000110 = .ok .fold := by decide
theorem test_decode_xorb : decode 0b00000000000000000000000000000111 = .ok .xorb := by decide
theorem test_decode_adv : decode 0b00000000000000000000000000001000 = .ok .adv := by decide
theorem test_decode_block : decode 0b00000000000000000000000000001001 = .ok .block := by decide
theorem test_decode_apply : decode 0b00000000000000000000000000001010 = .ok .apply := by decide
theorem test_decode_xorm : decode 0b00000000000000000000000000001011 = .ok .xorm := by decide
theorem test_decode_reserved : decode 0x0000000C = .error .reserved ∧ decode 0x0000000F = .error .reserved := by decide
theorem test_decode_malformed : decode 0x00000015 = .error .malformed ∧ decode 0xFFFFFFFF = .error .malformed := by decide
theorem test_decode_table_word : decodeTableWord 32 0x5 = some .mix ∧ decodeTableWord 32 0xC = none := by decide

/-! The commands. -/

/-- V-NOP. -/
theorem test_nop : statusWord (after .nop fresh) = 0x00000002 := by decide +kernel

/-- V-SEED-1. -/
theorem test_seed :
    let t := after .seed (keyed 5)
    t.base = tb ∧ t.off = 0 ∧ t.rem = 5 ∧ t.bsz = 0 ∧ validWord t = 0x00001FFF ∧ statusWord t = 0x00000002 := by
  decide +kernel

/-- V-SEED-F1. -/
theorem test_seed_not_ready :
    let t := after .seed { keyed 5 with nv := 0x7 }
    statusWord t = 0x00000024 ∧ validWord t = 0x000007FF ∧ t.faddr = 0 ∧ t.rem = 0 := by
  decide +kernel

/-- V-BSIZE. -/
theorem test_bsize :
    (after .bsize (seeded 63)).bsz = 63 ∧ (after .bsize (seeded 65)).bsz = 64 ∧
      (after .bsize (seeded (2 ^ 64 - 1))).bsz = 64 := by
  decide +kernel

/-- V-COPY. -/
theorem test_copy : (after .copy (seeded 5)).blk = tb ∧ validWord (after .copy (seeded 5)) = 0xFFFF1FFF := by decide +kernel

/-- V-COPY-F1. -/
theorem test_copy_not_ready : statusWord (after .copy fresh) = 0x00000024 := by decide +kernel

/-- V-CTRINC, the wrap row: no carry passes from one word to the next. -/
theorem test_ctrinc_wraps :
    (words (after .ctrinc { seeded 64 with
      base := #v[0xFFFFFFF0, 0xFFFFFFFF, 0, 0xFFFFFFC0, 1, 2, 3, 4, 5, 6, 7, 8, 9, 10, 11, 12], bsz := 64 }).base).take 5 =
      [0x00000030, 0x0000003F, 0x00000040, 0x00000000, 1] := by
  decide +kernel

/-- V-ROR. -/
theorem test_ror : ror32 0x12345678 17 = 0x2B3C091A ∧ ror32 0x80000001 7 = 0x03000000 ∧ ror32 0x0000000E 11 = 0x01C00000 := by
  decide

/-- V-MIX-2. -/
theorem test_mix_counting :
    words (after .mix (withWords fresh #v[0, 1, 2, 3, 4, 5, 6, 7, 8, 9, 10, 11, 12, 13, 14, 15])).blk =
      [0x3C, 0x3D, 0x36, 0x47, 0x5C, 0x61, 0x62, 0x67, 0x50, 0x45, 0x46, 0x3B, 0x24, 0x25, 0x36, 0x27] := by
  decide +kernel

/-- V-MIX-8: the seeded test state; the result is the `BLK before` of V-FOLD. -/
theorem test_mix_seeded :
    words (after .mix (withWords fresh tb)).blk =
      [0x8AA3C0E7, 0x192B9E3F, 0x873D3268, 0x7674D230, 0xF414DA00, 0x120F20B4, 0x0B0E0908, 0xB2AE010C,
       0x2B1E1100, 0x2C6FF370, 0x3527DB08, 0x3635FCBC, 0xAAA1A7A0, 0xD867E760, 0xA0ABA5B8, 0xF26DE9B8] := by
  decide +kernel

/-- V-FOLD: words 0 and 12, the second of which wraps. -/
theorem test_fold :
    let t := after .fold { withWords (seeded 5)
      #v[0x8AA3C0E7, 0, 0, 0, 0, 0, 0, 0, 0, 0, 0, 0, 0xAAA1A7A0, 0, 0, 0] with base := counterAdd tb 5 }
    t.blk[0] = 0x8BC70653 ∧ t.blk[12] = 0x4E444940 := by
  decide +kernel

/-- V-FOLD-F1. -/
theorem test_fold_not_ready : statusWord (after .fold (seeded 5)) = 0x00000024 := by decide +kernel

/-- V-ADV. -/
theorem test_adv :
    let t := after .adv { seeded 100 with off := 64, rem := 36, bsz := 36 }
    t.off = 100 ∧ t.rem = 0 ∧ t.bsz = 0 := by
  decide +kernel

/-- V-XORB-1. -/
theorem test_xorb :
    let t := after .xorb { withWords (seeded 5)
      #v[0x8BC70653, 0xA2D76C33, 0, 0, 0, 0, 0, 0, 0, 0, 0, 0, 0, 0, 0, 0] with bsz := 5, mem := [(0x1005, 0xEE)] }
    bytes t 0x1000 6 = [0x53, 0x06, 0xC7, 0x8B, 0x33, 0xEE] ∧
      t.accesses = [⟨.read, 0x1000, 4⟩, ⟨.write, 0x1000, 4⟩, ⟨.read, 0x1004, 1⟩, ⟨.write, 0x1004, 1⟩] := by
  decide +kernel

/-- V-XORB-0 and V-NR-3: BLK is checked although BSZ is 0. -/
theorem test_xorb_not_ready : statusWord (after .xorb fresh) = 0x00000024 := by decide +kernel

/-- V-BLOCK, the second BLOCK. -/
theorem test_block :
    let t := after .block (after .block (seeded 100))
    t.off = 100 ∧ t.rem = 0 ∧ t.bsz = 0 ∧ t.base[0] = 0x012345CB ∧ t.blk[0] = 0x8BC702F2 ∧
      bytes t 0x1060 5 = [0x10, 0x22, 0x30, 0x3E, 0] := by
  decide +kernel

/-- V-APPLY-65. -/
theorem test_apply :
    let t := after .apply (keyed 65)
    bytes t 0x1000 4 = [0x8E, 0x06, 0xC7, 0x8B] ∧ bytes t 0x103E 4 = [0x1C, 0xA2, 0xCF, 0] ∧ t.off = 65 ∧ t.rem = 0 ∧
      t.base[3] = 0x76543251 ∧ statusWord t = 0x00000002 := by
  decide +kernel

/-- V-BUS-1 with `VW = 8`. -/
theorem test_apply_bus :
    let t := after .apply (onPlatform (keyed 128) .w8 [⟨0x1000, 100, [8, 4, 2, 1], true, true⟩])
    statusWord t = 0x00000034 ∧ t.faddr = 0x1060 ∧ t.off = 64 ∧ t.rem = 64 ∧ t.bsz = 64 ∧ t.base[0] = 0x012345E7 ∧
      t.blk[0] = 0x8BC7030E ∧ bytes t 0x105E 4 = [0xBC, 0xC1, 0, 0] := by
  decide +kernel

/-- V-XORM-13. -/
theorem test_xorm :
    let t := after .xorm { spans 0x2000 0x3000 13 with
      mem := (Memory.writeBytes (Memory.writeBytes [] 0x2000 [0, 1, 2, 3, 4, 5, 6, 7, 8, 9, 10, 11, 12, 13])
        0x3000 (List.replicate 13 0xFF)) }
    bytes t 0x2000 14 = [0xFF, 0xFE, 0xFD, 0xFC, 0xFB, 0xFA, 0xF9, 0xF8, 0xF7, 0xF6, 0xF5, 0xF4, 0xF3, 0x0D] ∧
      t.accesses.map (fun x => (x.addr, x.width)) =
        [(0x3000, 8), (0x2000, 8), (0x2000, 8), (0x3008, 4), (0x2008, 4), (0x2008, 4), (0x300C, 1), (0x200C, 1), (0x200C, 1)] := by
  decide +kernel

/-- V-OVL-1, V-PRI-1 and V-PRI-2: RANGE before OVERLAP before BUS. -/
theorem test_xorm_fault_order :
    statusWord (after .xorm (spans 0x2000 0x2004 8)) = 0x00000044 ∧
      statusWord (after .xorm (spans 0xFFFFFFFFFFFFFFF8 0xFFFFFFFFFFFFFFF8 16)) = 0x00000054 ∧
      statusWord (after .xorm (onPlatform (spans 0x2000 0x2004 8) .w64 [])) = 0x00000044 := by
  decide +kernel

/-! The register interface. -/

/-- V-ILL-2. -/
theorem test_illegal_word :
    let t := stepped 1 (pending fresh [.write 0x000 4 0x00000015])
    statusWord t = 0x00000014 ∧ t.faddr = 0x15 := by
  decide +kernel

/-- V-VALID. -/
theorem test_valid_register :
    (stepped 4 (pending fresh
      [.write 0x04C 4 0x0F0E0D0C, .write 0x064 4 7, .write 0x0FC 4 9, .read 0x070 4])).reads = [0x80000208] := by
  decide +kernel

/-- V-HI: with `AW = 40` bits 31:8 of a HI register do not exist. -/
theorem test_hi_register :
    (stepped 2 (pending { fresh with cfg := config .w64 33 [] } [.write 0x014 4 0xFFFFFFFF, .read 0x014 4])).reads =
      [0x000000FF] := by
  decide +kernel

/-- V-STICKY. -/
theorem test_fault_is_sticky :
    (stepped 6 (pending fresh
      [.write 0x000 4 0xA, .write 0x040 4 0x12345678, .write 0x000 4 0xC, .read 0x040 4, .read 0x070 4, .read 0x004 4])).reads =
      [0, 0, 0x00000024] := by
  decide +kernel

/-- V-RO. -/
theorem test_read_only_registers :
    (stepped 4 (pending fresh [.write 0x080 4 1, .write 0x03C 4 1, .read 0x080 4, .read 0x03C 4])).reads = [0, 0] := by
  decide +kernel

/-- R124: reset leaves the faulted state. -/
theorem test_reset_leaves_fault :
    statusWord (stepped 1 (pending (broken (keyed 5)) [.reset])) = 0 ∧ (stepped 1 (pending (keyed 5) [.reset])).kv = 0 := by
  decide +kernel

/-- The host places a command and the next step runs it. -/
theorem test_with_fetch_word : (stepped 1 (State.withFetchWord fresh 32 0x0)).done = true := by decide +kernel

/-! The script reader (R63, R64). -/

theorem test_script :
    parseScript "SETLEN 5 ; five bytes\n\nWR KEY3, 0x0F0E0D0C\nCMD APPLY\nRD STATUS ; = 0x00000002".toList =
      some [.setLen 5, .wr (.key 3) 0x0F0E0D0C, .cmd .apply, .rd .status] := by
  decide +kernel

theorem test_script_rejects : parseScript "JMP 5".toList = none := by decide +kernel

/-! Witnesses: for each statement with hypotheses, a state and operands that meet them; one for each clause, at the ends of the
clause's range. -/

theorem witness_DecodeInvertsEncode : Instr.wellFormed .xorm = true ∧ decode 0x0000000B = .ok .xorm := by decide

theorem witness_EveryOtherWordIsIllegal :
    (∃ i, decode 0x0000000B = .ok i) ∧ decode 0x0000000C = .error .reserved ∧ decode 0x0000000F = .error .reserved ∧
      decode 0x00000010 = .error .malformed ∧ decode 0xFFFFFFFF = .error .malformed :=
  ⟨⟨.xorm, by decide⟩, by decide⟩

theorem witness_RegisterMapIsExact :
    Reg.ofOffset 0x000 = some .cmd ∧ Reg.ofOffset 0x0FC = some (.blk 15) ∧ Reg.ofOffset 0x100 = none ∧
      Reg.ofOffset 0x0FE = none := by
  decide

theorem witness_StepRunsDecodedCommand :
    (pending fresh [.write 0x000 4 0xB]).host = [.write 0x000 4 0xB] ∧ decode 0xB = .ok .xorm := by
  decide +kernel

theorem witness_IllegalWordFaults :
    fresh.ready ∧ (pending fresh [.write 0x000 4 0xC]).host = [.write 0x000 4 0xC] ∧ 12 ≤ (0xC : Word).toNat := by
  decide +kernel

theorem witness_GatedEngineIgnoresWrites :
    (broken fresh).fault = true ∧ (startCommand fresh).busy = true ∧
      (pending (broken fresh) [.write (Reg.offset (.key 7)) 4 1]).host = [.write (Reg.offset (.key 7)) 4 1] := by
  decide +kernel

theorem witness_GatedCommandChangesNothing : (broken fresh).fault = true ∧ (startCommand fresh).busy = true := by decide +kernel

theorem witness_HostWriteLoadsWord :
    fresh.ready ∧ (pending fresh [.write (0x040 + 4 * (7 : Fin 8).val) 4 1]).host = [.write 0x05C 4 1] ∧
      (pending fresh [.write (0x060 + 4 * (3 : Fin 4).val) 4 1]).host = [.write 0x06C 4 1] ∧
      (pending fresh [.write (0x0C0 + 4 * (15 : Fin 16).val) 4 1]).host = [.write 0x0FC 4 1] := by
  decide +kernel

/-- The six offsets of the six clauses exclude each other, and a ready engine may have any of them pending. -/
theorem witness_HostWriteReplacesHalf :
    ∀ o ∈ [0x010, 0x014, 0x018, 0x01C, 0x020, 0x024],
      (pending fresh [.write o 4 0xFFFFFFFF]).ready ∧
        (pending fresh [.write o 4 0xFFFFFFFF]).host = [.write o 4 0xFFFFFFFF] := by
  decide +kernel

theorem witness_ReadOnlySlotIgnoresWrite :
    Reg.status ∈ [Reg.status, .faddrLo, .faddrHi, .offLo, .offHi, .remLo, .remHi, .bsz, .valid] ∧
      (∀ r ∈ [Reg.status, .base 15, .reserved 3],
        (pending fresh [.write r.offset 4 1]).host = [.write r.offset 4 1]) := by
  decide +kernel

theorem witness_RegisterReadGivesMapValue :
    (broken fresh).busy = false ∧
      ∀ r ∈ [Reg.cmd, .status, .bsz, .valid, .blk 15, .reserved 3],
        (pending (broken fresh) [.read r.offset 4]).host = [.read r.offset 4] := by
  decide +kernel

theorem witness_NonRegisterAccessHasNoStep :
    (¬(2 = 4 ∧ 0x040 % 4 = 0 ∧ 0x040 < 0x100) ∧ (pending fresh [.write 0x040 2 1]).host = [.write 0x040 2 1]) ∧
      (¬(4 = 4 ∧ 0x0FE % 4 = 0 ∧ 0x0FE < 0x100) ∧ (pending fresh [.read 0x0FE 4]).host = [.read 0x0FE 4]) ∧
      (¬(4 = 4 ∧ 0x100 % 4 = 0 ∧ 0x100 < 0x100) ∧ (pending fresh [.read 0x100 4]).host = [.read 0x100 4]) := by
  decide +kernel

theorem witness_IdleEngineKeepsState : fresh.host = [] := rfl

theorem witness_ResetStepClearsRegisters : (pending (broken (keyed 5)) [.reset]).host = [.reset] := rfl

/-- A state that meets the invariant, with a block chosen and bytes in memory, and the step that advances. -/
def busyState : State := { seeded 100 with off := 64, rem := 36, bsz := 36, mem := [(0x1000, 1)] }

theorem witness_EveryStepKeepsInvariant :
    State.Inv (pending busyState [.write 0x000 4 8]) ∧
      step (pending busyState [.write 0x000 4 8]) = .next (stepped 1 (pending busyState [.write 0x000 4 8])) :=
  ⟨by decide +kernel, step_stepped (by decide +kernel)⟩

theorem witness_OffPlusRemIsSeedLength :
    busyState.Inv ∧ (busyState.ready ∧ busyState.kv = 0xFF ∧ busyState.nv = 0xF) ∧
      exec .apply busyState = .next (after .apply busyState) ∧ exec .adv busyState = .next (after .adv busyState) :=
  ⟨by decide +kernel, by decide +kernel, exec_after .., exec_after ..⟩

theorem witness_CommandCompletesOrFaults : fresh.ready ∧ fresh.cause = none := by decide +kernel

theorem witness_OnlyResetLeavesFault :
    let s := pending (broken fresh) [.read 0x004 4]
    (s.fault = true ∧ s.host.head? ≠ some .reset) ∧ step s = .next (stepped 1 s) :=
  ⟨by decide +kernel, step_stepped (by decide +kernel)⟩

theorem witness_OnlyResetClearsValidity :
    let s := pending (withWords (seeded 5) tb) [.write 0x000 4 3]
    (s.host.head? ≠ some .reset ∧ s.kv.getLsbD 7 = true ∧ s.nv.getLsbD 3 = true ∧ s.seeded = true ∧ s.blkv.getLsbD 15 = true) ∧
      step s = .next (stepped 1 s) :=
  ⟨by decide +kernel, step_stepped (by decide +kernel)⟩

theorem witness_CommandsKeepHostRegisters : exec .seed (keyed 5) = .next (after .seed (keyed 5)) := exec_after ..

theorem witness_OnlyDriverWritesBase :
    let s := pending (keyed 5) [.write 0x000 4 1]
    step s = .next (stepped 1 s) ∧ (stepped 1 s).base[15] ≠ s.base[15] :=
  ⟨step_stepped (by decide +kernel), by decide +kernel⟩

theorem witness_ParametersNeverChange : step fresh = .next fresh := rfl

theorem witness_OtherCommandsTouchNoMemory :
    Instr.mix ∈ [Instr.nop, .seed, .bsize, .copy, .ctrinc, .mix, .fold, .adv] ∧
      exec .mix (withWords fresh tb) = .next (after .mix (withWords fresh tb)) :=
  ⟨by decide, exec_after ..⟩

/-- An engine about to XOR one whole block of its buffer. -/
def fullBlock : State := { withWords (seeded 64) tb with bsz := 64 }

theorem witness_StoresStayInDestination :
    (¬(blockStart fullBlock ≤ 0xFFF ∧ 0xFFF < blockStart fullBlock + fullBlock.bsz.val) ∧
      (keyed 65).dlen.toNat < spaceSize (keyed 65).cfg) ∧
      exec .xorb fullBlock = .next (after .xorb fullBlock) ∧
      exec .xorm (spans 0x2000 0x3000 1) = .next (after .xorm (spans 0x2000 0x3000 1)) ∧
      exec .block (seeded 65) = .next (after .block (seeded 65)) ∧ exec .apply (keyed 65) = .next (after .apply (keyed 65)) :=
  ⟨by decide +kernel, exec_after .., exec_after .., exec_after .., exec_after ..⟩

theorem witness_NopCompletes : fresh.ready ∧ (broken fresh).fault = true := by decide +kernel

theorem witness_SeedLoadsBase :
    (keyed 5).ready ∧ ((keyed 5).kv = 0xFF ∧ (keyed 5).nv = 0xF) ∧ fresh.ready ∧ ¬(fresh.kv = 0xFF ∧ fresh.nv = 0xF) := by
  decide +kernel

theorem witness_BsizeChoosesBlockSize : (seeded 65).ready := by decide +kernel

theorem witness_CopyTakesBase : (seeded 5).ready ∧ (seeded 5).seeded = true ∧ fresh.ready ∧ fresh.seeded = false := by
  decide +kernel

theorem witness_CtrincAdvancesCounter : (seeded 5).ready ∧ (seeded 5).seeded = true ∧ fresh.ready ∧ fresh.seeded = false := by
  decide +kernel

theorem witness_MixIteratesLaneRound :
    (withWords fresh tb).ready ∧ (withWords fresh tb).blkv = 0xFFFF ∧ fresh.ready ∧ fresh.blkv ≠ 0xFFFF := by
  decide +kernel

theorem witness_MixOperandTable : (withWords fresh tb).ready ∧ (withWords fresh tb).blkv = 0xFFFF := by decide +kernel

/-- Word 15 moved by 2^31: word 15 is the clause of its own, word 12 a clause of another; word 3 is the one that may change. -/
theorem witness_TopBitReachesOneOtherWord :
    (∀ i : Fin 16, (tb.set 15 (tb[15] + 0x80000000#32))[i] = if i = 15 then tb[i] + 0x80000000#32 else tb[i]) ∧
      laneIdx 3 3 = 15 ∧ laneIdx 3 0 ≠ 15 ∧ laneIdx (3 + 3) (shuffle (3 + 3))[(0 + 1 : Fin 4)] ≠ 15 ∧
      laneIdx (0 + 3) (shuffle (0 + 3))[(3 + 1 : Fin 4)] = 15 := by
  decide +kernel

theorem witness_FoldAddsBase :
    (withWords (seeded 5) tb).ready ∧ ((withWords (seeded 5) tb).seeded = true ∧ (withWords (seeded 5) tb).blkv = 0xFFFF) ∧
      (seeded 5).ready ∧ ¬((seeded 5).seeded = true ∧ (seeded 5).blkv = 0xFFFF) := by
  decide +kernel

theorem witness_AdvMovesSequencer : busyState.ready ∧ busyState.sequencerInv := by decide +kernel

/-- A block that ends at the last byte of the address space, and a block of size 0. -/
theorem witness_XorbXorsBlockBytes :
    (∀ s ∈ [fullBlock, { fullBlock with daddr := 0xFFFFFFFFFFFFFFC0 }],
      s.ready ∧ s.blkv = 0xFFFF ∧ s.daddr.toNat + s.off.toNat + s.bsz.val ≤ 2 ^ addrWidth s.cfg ∧
        spanAdmitted s.cfg (s.daddr.toNat + s.off.toNat) s.bsz.val = true) ∧
      (withWords (seeded 5) tb).ready ∧ (withWords (seeded 5) tb).blkv = 0xFFFF ∧ (withWords (seeded 5) tb).bsz.val = 0 := by
  decide +kernel

theorem witness_XorbNeedsValidBlk : fresh.ready ∧ fresh.blkv ≠ 0xFFFF := by decide +kernel

/-- Adjacent spans (V-XORM-ADJ) and equal spans of size 0 (V-XORM-0). -/
theorem witness_XormXorsSpans :
    (spans 0x2000 0x2008 8).ready ∧ 0x2000 + 8 ≤ 2 ^ addrWidth fresh.cfg ∧ 0x2008 + 8 ≤ 2 ^ addrWidth fresh.cfg ∧
      ¬(0x2000 < 0x2008 + 8 ∧ 0x2008 < 0x2000 + 8) ∧ sourceAdmitted fresh.cfg 0x2008 8 = true ∧
      spanAdmitted fresh.cfg 0x2000 8 = true ∧ (spans 0x2000 0x2008 8).dlen.toNat = 8 ∧
      (spans 0x2000 0x2000 0).ready ∧ (spans 0x2000 0x2000 0).dlen.toNat = 0 := by
  decide +kernel

/-- A whole block and a last block of one byte. -/
theorem witness_BlockProcessesOneBlock :
    ∀ s ∈ [seeded 65, seeded 1],
      s.ready ∧ s.sequencerInv ∧ s.rem ≠ 0 ∧
        s.daddr.toNat + s.off.toNat + min 64 s.rem.toNat ≤ 2 ^ addrWidth s.cfg ∧
        spanAdmitted s.cfg (s.daddr.toNat + s.off.toNat) (min 64 s.rem.toNat) = true := by
  decide +kernel

theorem witness_BlockIsItsSevenSteps : (seeded 0).rem = 0 ∧ (seeded 1).rem ≠ 0 := by decide +kernel

theorem witness_ApplyNeedsKeyAndNonce : fresh.ready ∧ ¬(fresh.kv = 0xFF ∧ fresh.nv = 0xF) := by decide +kernel

theorem witness_ApplyOfNothingIsSeed :
    (keyed 0).ready ∧ ((keyed 0).kv = 0xFF ∧ (keyed 0).nv = 0xF) ∧ (keyed 0).dlen = 0 := by
  decide +kernel

/-- What the statements about a whole APPLY assume, for the empty buffer, one block, and two blocks. -/
theorem witness_ApplyXorsKeystream :
    ∀ n ∈ [0, 64, 65],
      (keyed n).ready ∧ ((keyed n).kv = 0xFF ∧ (keyed n).nv = 0xF) ∧ (keyed n).dlen.toNat < spaceSize (keyed n).cfg ∧
        blocksAdmitted (keyed n).cfg (keyed n).daddr.toNat (keyed n).dlen.toNat (blockCount (keyed n).dlen.toNat) := by
  decide +kernel

theorem witness_ScheduleCoversSpan : 6 < (sched 127 .w64).length ∧ (120, 4) ∈ sched 127 .w64 := by decide +kernel

theorem witness_AccessesFollowSchedule :
    (fullBlock.ready ∧ (after .xorb fullBlock).fault = false ∧ (spans 0x2000 0x3000 1).ready ∧
      (after .xorm (spans 0x2000 0x3000 1)).fault = false) ∧
      exec .xorb fullBlock = .next (after .xorb fullBlock) ∧
      exec .xorm (spans 0x2000 0x3000 1) = .next (after .xorm (spans 0x2000 0x3000 1)) :=
  ⟨by decide +kernel, exec_after .., exec_after ..⟩

theorem witness_WidthDoesNotChangeBytes :
    ∀ p ∈ [(Instr.xorb, fullBlock), (.xorm, spans 0x2000 0x3000 1), (.apply, keyed 65)],
      p.2.ready ∧ p.2.dlen.toNat < spaceSize p.2.cfg ∧ (after p.1 p.2).fault = false ∧
        (after p.1 { p.2 with cfg := { p.2.cfg with vw := .w8, windows := [openWindow 0x4000] } }).fault = false := by
  decide +kernel

/-- One byte past the end, for XORB, for the destination and for the source of XORM. -/
theorem witness_RangeFaultPrecedesAccesses :
    (let s : State := { fullBlock with daddr := 0xFFFFFFFFFFFFFFC1 };
      s.ready ∧ s.blkv = 0xFFFF ∧ s.bsz.val ≠ 0 ∧ 2 ^ addrWidth s.cfg < s.daddr.toNat + s.off.toNat + s.bsz.val) ∧
      (let s := spans 0xFFFFFFFFFFFFFFF8 0x3000 9;
        s.ready ∧ s.dlen.toNat ≠ 0 ∧ 2 ^ addrWidth s.cfg < s.daddr.toNat + s.dlen.toNat) ∧
      (let s := spans 0x3000 0xFFFFFFFFFFFFFFF8 9;
        s.ready ∧ s.dlen.toNat ≠ 0 ∧ 2 ^ addrWidth s.cfg < s.saddr.toNat + s.dlen.toNat) := by
  decide +kernel

/-- Equal starts, spans that share one byte, adjacent spans, and equal spans of size 0. -/
theorem witness_OverlapFaultIsExact :
    ∀ p ∈ [(spans 0x2000 0x2000 1, true), (spans 0x2000 0x2008 9, true), (spans 0x2000 0x2008 8, false),
        (spans 0x2000 0x2000 0, false)],
      p.1.ready ∧ p.1.cause = none ∧ p.1.daddr.toNat + p.1.dlen.toNat ≤ 2 ^ addrWidth p.1.cfg ∧
        p.1.saddr.toNat + p.1.dlen.toNat ≤ 2 ^ addrWidth p.1.cfg ∧
        (0 < p.1.dlen.toNat ∧ p.1.daddr.toNat < p.1.saddr.toNat + p.1.dlen.toNat ∧
          p.1.saddr.toNat < p.1.daddr.toNat + p.1.dlen.toNat ↔ p.2 = true) := by
  decide +kernel

/-- Six bytes at 0x1000 of which the platform admits the first four: the chunk of two at 0x1004 is refused. -/
theorem witness_XorbBusFaultKeepsEarlierChunks :
    let s := onPlatform { fullBlock with bsz := 6 } .w64 [openWindow 0x1004]
    s.ready ∧ s.blkv = 0xFFFF ∧ s.daddr.toNat + s.off.toNat + s.bsz.val ≤ 2 ^ addrWidth s.cfg ∧
      sched s.bsz.val s.cfg.vw = [(0, 4)] ++ (4, 2) :: [] ∧
      (∀ ow ∈ [(0, 4)], admitted s.cfg (0x1000 + ow.1) ow.2 .read = true ∧ admitted s.cfg (0x1000 + ow.1) ow.2 .write = true) ∧
      ¬(admitted s.cfg (0x1000 + 4) 2 .read = true ∧ admitted s.cfg (0x1000 + 4) 2 .write = true) := by
  decide +kernel

/-- V-BUS-2, a read-only destination, and V-BUS-3, an unreadable source: the first chunk is refused in both. -/
theorem witness_XormBusFaultKeepsEarlierChunks :
    ∀ s ∈ [onPlatform (spans 0x2000 0x3000 4) .w64 [⟨0, 0x4000, [4], true, false⟩],
        onPlatform (spans 0x2000 0x3000 4) .w64 [openWindow 0x3000]],
      s.ready ∧ 0x2000 + 4 ≤ 2 ^ addrWidth s.cfg ∧ 0x3000 + 4 ≤ 2 ^ addrWidth s.cfg ∧
        ¬(0x2000 < 0x3000 + 4 ∧ 0x3000 < 0x2000 + 4) ∧ s.dlen.toNat = 4 ∧ sched 4 s.cfg.vw = [] ++ (0, 4) :: [] ∧
        ¬(admitted s.cfg (0x3000 + 0) 4 .read = true ∧ admitted s.cfg (0x2000 + 0) 4 .read = true ∧
          admitted s.cfg (0x2000 + 0) 4 .write = true) := by
  decide +kernel

/-- V-BUS-1 with `VW = 64`, where block 1 faults, and a buffer whose block 0 does. -/
theorem witness_ApplyFaultKeepsEarlierBlocks :
    ∀ p ∈ [(onPlatform (keyed 128) .w64 [openWindow 0x1064], 1), (onPlatform (keyed 128) .w64 [], 0)],
      p.1.ready ∧ (p.1.kv = 0xFF ∧ p.1.nv = 0xF) ∧ p.1.dlen.toNat < spaceSize p.1.cfg ∧ 64 * p.2 < p.1.dlen.toNat ∧
        blocksAdmitted p.1.cfg p.1.daddr.toNat p.1.dlen.toNat p.2 ∧
        ¬(inSpace p.1.cfg (p.1.daddr.toNat + 64 * p.2) (sizeOfBlock p.1.dlen.toNat p.2) = true ∧
          spanAdmitted p.1.cfg (p.1.daddr.toNat + 64 * p.2) (sizeOfBlock p.1.dlen.toNat p.2) = true) := by
  decide +kernel

theorem witness_ApplyTwiceRestoresBuffer :
    let s := keyed 5
    let t := after .apply s
    (s.ready ∧ s.dlen.toNat < spaceSize s.cfg ∧ t.final) ∧ exec .apply s = .next t ∧ exec .apply t = .next (after .apply t) :=
  ⟨by decide +kernel, exec_after .., exec_after ..⟩

/-- A buffer of 64 bytes and one of 65 share their first 64 keystream bytes. -/
theorem witness_FullBlocksShareKeystream :
    let s := keyed 64
    let u := keyed 65
    (s.cfg.const = u.cfg.const ∧ s.key = u.key ∧ s.nonce = u.nonce ∧ s.ready ∧ u.ready ∧
      s.dlen.toNat < spaceSize s.cfg ∧ u.dlen.toNat < spaceSize u.cfg ∧ (after .apply s).final ∧ (after .apply u).final ∧
      64 * (63 / 64 + 1) ≤ s.dlen.toNat ∧ 64 * (63 / 64 + 1) ≤ u.dlen.toNat) ∧
      exec .apply s = .next (after .apply s) ∧ exec .apply u = .next (after .apply u) :=
  ⟨by decide +kernel, exec_after .., exec_after ..⟩

/-- A buffer of one block more than 2^32 bytes, and its last byte. -/
theorem witness_KeystreamRepeatsAfterWrap :
    let s := keyed (2 ^ 32 + 64)
    s.ready ∧ (s.kv = 0xFF ∧ s.nv = 0xF) ∧ s.dlen.toNat < spaceSize s.cfg ∧
      blocksAdmitted s.cfg s.daddr.toNat s.dlen.toNat (blockCount s.dlen.toNat) ∧
      64 * ((63 + 2 ^ 32) / 64 + 1) ≤ s.dlen.toNat := by
  have hn : (keyed (2 ^ 32 + 64)).dlen.toNat = 2 ^ 32 + 64 := by decide
  have hd : (keyed (2 ^ 32 + 64)).daddr.toNat = 0x1000 := by decide
  have hs : spaceSize (keyed (2 ^ 32 + 64)).cfg = 2 ^ 64 := by decide
  refine ⟨by decide, by decide, by rw [hn, hs]; decide, fun b hb => ?_, by rw [hn]; decide⟩
  rw [hn, blockCount] at hb
  rw [hn, hd]
  have hin : 0x1000 + 64 * b + sizeOfBlock (2 ^ 32 + 64) b ≤ 2 ^ 64 := by
    rw [sizeOfBlock]
    omega
  exact ⟨by rw [inSpace, hs]; exact decide_eq_true hin, spanAdmitted_open (n := 2 ^ 64) (by simp [keyed, fresh]) hin⟩

/-- A whole block and a last block of five bytes, from the same base state. -/
theorem witness_BlockSizeEntersFirstWordsOnly :
    let s := seeded 64
    let u := seeded 5
    (s.ready ∧ u.ready ∧ s.sequencerInv ∧ u.sequencerInv ∧ s.rem ≠ 0 ∧ u.rem ≠ 0 ∧ s.base = u.base) ∧
      exec .block s = .next (after .block s) ∧ exec .block u = .next (after .block u) :=
  ⟨by decide +kernel, exec_after .., exec_after ..⟩

/-- The ends of both ranges. -/
theorem witness_ParametersRangeAndDefault :
    (64 ∈ [64, 32, 16, 8] ∧ 8 ∈ [64, 32, 16, 8]) ∧ (7 ≤ 7 ∧ 7 ≤ 64) ∧ (7 ≤ 64 ∧ 64 ≤ 64) ∧
      vwBytes (config .w8 0 []).vw = 8 ∧ addrWidth (config .w8 0 []) = 7 := by
  decide

end Sys2Proof.Tests
end

