-- ==== Sys2Proof/Proofs/Parameters.lean ====
section
/-! PROOFS. The parameters of a build (R7, R8): `vwBytes` and `addrWidth` take exactly the legal values. -/

namespace Sys2Proof.Machine

theorem mem_legalVw_iff_exists_vwBytes (v : Nat) : v ∈ [64, 32, 16, 8] ↔ ∃ vw, vwBytes vw = v := by
  constructor
  · intro hv
    simp only [List.mem_cons, List.not_mem_nil, or_false] at hv
    obtain rfl | rfl | rfl | rfl := hv
    exacts [⟨.w64, rfl⟩, ⟨.w32, rfl⟩, ⟨.w16, rfl⟩, ⟨.w8, rfl⟩]
  · rintro ⟨vw, rfl⟩
    cases vw <;> decide

theorem vwBytes_mem_legalVw (vw : VecWidth) : vwBytes vw ∈ [64, 32, 16, 8] :=
  (mem_legalVw_iff_exists_vwBytes _).mpr ⟨vw, rfl⟩

theorem addrWidth_ge (c : Config) : 7 ≤ addrWidth c := Nat.le_add_right 7 _

theorem addrWidth_le (c : Config) : addrWidth c ≤ 64 := by
  have h : c.awOver.val < 58 := c.awOver.isLt
  unfold addrWidth
  omega

/-- Every legal pair of parameters is a build, for any constants and admission: `AW` is held as `AW - 7`. -/
theorem exists_config (words : Vector Word 4) (ws : List Window) {v n : Nat} (hv : v ∈ [64, 32, 16, 8])
    (h7 : 7 ≤ n) (h64 : n ≤ 64) :
    ∃ c : Config, c.const = words ∧ c.windows = ws ∧ vwBytes c.vw = v ∧ addrWidth c = n := by
  obtain ⟨vw, hvw⟩ := (mem_legalVw_iff_exists_vwBytes v).mp hv
  exact ⟨⟨words, vw, ⟨n - 7, by omega⟩, ws⟩, rfl, rfl, hvw, Nat.add_sub_cancel' h7⟩

/-- Settles O60: the ranges of both parameters, a build for every legal pair, and the defaults of the record's own fields,
which the build at `State.reset` takes over. -/
theorem parametersRangeAndDefault : Obligations.ParametersRangeAndDefault := by
  unfold Obligations.ParametersRangeAndDefault
  refine ⟨fun c => ⟨vwBytes_mem_legalVw c.vw, addrWidth_ge c, addrWidth_le c⟩,
    fun words ws v hv n ⟨h7, h64⟩ => exists_config words ws hv h7 h64, fun _ _ => ⟨rfl, rfl⟩, ?_, ?_⟩
  · rw [reset_cfg, build_vw, vwBytes]
  · rw [reset_cfg, build_addrWidth]

end Sys2Proof.Machine
end

