-- ==== Sys2Proof/Proofs/BodyRules.lean ====
section
/-! PROOFS. What the commands keep, as relations between the state before and the state after: a relation that the updates a
command makes keep is kept by every body, and by every command. -/

namespace Sys2Proof.Machine

/-- A body that either makes one update or raises a fault. -/
theorem all_guarded {P : State → Prop} {g : Prop} [Decidable g] {s t : State} {c : Cause} {n : Nat} (ht : P t)
    (hf : P (enterFault s c n)) : (if g then Flow.ok t else raise s c n).All P := by
  split
  · exact ht
  · exact hf

/-- What holds of every state holds of the state a flow carries. -/
theorem all_of_forall {P : State → Prop} (h : ∀ t, P t) (f : Flow) : f.All P := by
  cases f <;> exact h _

theorem settle_all {P : State → Prop} {f : Flow} (h : f.All P) (hc : ∀ t, P t → P (completeCommand t)) : P (settle f) := by
  cases f with
  | ok t => exact hc t h
  | raised t => exact h

/-- A relation that the start, the body and the completion keep is kept by the command, ignored ones included (R59). -/
theorem command_rel {R : State → State → Prop} (hrefl : ∀ s, R s s) (htrans : ∀ {s t u}, R s t → R t u → R s u)
    (hstart : ∀ s, R s (startCommand s)) (hcomplete : ∀ s, R s (completeCommand s)) {body : State → Flow}
    (hbody : ∀ s, (body s).All (R s)) (s : State) : R s (command body s) :=
  command_all (hrefl s) ((hbody _).mono fun _ => htrans (hstart s)) fun t h => htrans h (hcomplete t)

/-- A relation kept by everything the commands other than SEED and APPLY are made of: the framing of a command (R59), the updates
of its body, and, for the sequencer and for the loops of the XOR datapath, the whole body. -/
structure KeptBySteps (R : State → State → Prop) : Prop where
  refl : ∀ s, R s s
  trans : ∀ {s t u}, R s t → R t u → R s u
  start : ∀ s, R s (startCommand s)
  complete : ∀ s, R s (completeCommand s)
  fault : ∀ s c n, R s (enterFault s c n)
  blk : ∀ s b, R s (withBlk s b)
  fullBlk : ∀ s, R s (withBlkv s 0xFFFF)
  counter : ∀ s n, R s (withBase s (counterAdd s.base n))
  bsize : ∀ s, (bsizeBody s).All (R s)
  adv : ∀ s, (advBody s).All (R s)
  xorb : ∀ s, (xorbBody s).All (R s)
  xorm : ∀ s, (xormBody s).All (R s)

namespace KeptBySteps

variable {R : State → State → Prop}

theorem copy (h : KeptBySteps R) (s : State) : (copyBody s).All (R s) :=
  all_guarded (h.trans (h.blk ..) (h.fullBlk _)) (h.fault ..)

theorem ctrinc (h : KeptBySteps R) (s : State) : (ctrincBody s).All (R s) := all_guarded (h.counter ..) (h.fault ..)

theorem mix (h : KeptBySteps R) (s : State) : (mixBody s).All (R s) := all_guarded (h.blk ..) (h.fault ..)

theorem fold (h : KeptBySteps R) (s : State) : (foldBody s).All (R s) := all_guarded (h.blk ..) (h.fault ..)

theorem block (h : KeptBySteps R) (s : State) : (blockBody s).All (R s) :=
  blockBody_all h.refl (fun _ _ _ => h.trans) h.bsize h.copy h.ctrinc h.mix h.fold h.xorb h.adv s

theorem loop (h : KeptBySteps R) (n : Nat) (s : State) : (blockLoop n s).All (R s) :=
  blockLoop_all h.refl (fun _ _ _ => h.trans) h.block n s

/-- Where SEED keeps it too, the body of every command does. -/
theorem bodyOf (h : KeptBySteps R) {i : Instr} {s : State}
    (hseed : i = .seed ∨ i = .apply → (seedBody s).All (R s)) : (bodyOf i s).All (R s) := by
  cases i with
  | nop => exact h.refl s
  | seed => exact hseed (.inl rfl)
  | bsize => exact h.bsize s
  | copy => exact h.copy s
  | ctrinc => exact h.ctrinc s
  | mix => exact h.mix s
  | fold => exact h.fold s
  | xorb => exact h.xorb s
  | adv => exact h.adv s
  | block => exact h.block s
  | apply => exact (hseed (.inr rfl)).andThen fun t ht => (h.loop _ t).mono fun _ => h.trans ht
  | xorm => exact h.xorm s

/-- And so does every command, whether it is ignored, completes or faults. -/
theorem exec (h : KeptBySteps R) (hseed : ∀ s, (seedBody s).All (R s)) {i : Instr} {s t : State}
    (he : exec i s = .next t) : R s t := by
  rw [exec_eq] at he
  cases he
  exact command_rel h.refl h.trans h.start h.complete (fun u => h.bodyOf fun _ => hseed u) s

/-- And so does the fault of a word that is no command (R59). -/
theorem illegal (h : KeptBySteps R) (n : Nat) (s : State) : R s (command (fun u => raise u .illegal n) s) :=
  command_rel h.refl h.trans h.start h.complete (body := fun u => raise u .illegal n) (fun u => h.fault u .illegal n) s

end KeptBySteps

/-! The registers of the host (R18, R19, R20, R27). -/

/-- A command keeps what the host writes, if its body does. -/
theorem command_hostSide {body : State → Flow} (hbody : ∀ s, (body s).All (HostSide s)) (s : State) :
    HostSide s (command body s) :=
  command_rel .refl .trans (fun _ => by constructor <;> rfl) (fun _ => by constructor <;> rfl) hbody s

theorem exec_hostSide {i : Instr} {s t : State} (h : exec i s = .next t) : HostSide s t := by
  rw [exec_eq] at h
  cases h
  exact command_hostSide (bodyOf_hostSide i) s

/-! The validity bits (R33). -/

/-- No validity bit of `s` is lost in `t`. -/
structure ValidityKept (s t : State) : Prop where
  kv : ∀ j, s.kv.getLsbD j = true → t.kv.getLsbD j = true
  nv : ∀ j, s.nv.getLsbD j = true → t.nv.getLsbD j = true
  seeded : s.seeded = true → t.seeded = true
  blkv : ∀ j, s.blkv.getLsbD j = true → t.blkv.getLsbD j = true

/-- States with the same validity bits. -/
theorem validityKept_of_eq {s t : State} (hk : t.kv = s.kv) (hn : t.nv = s.nv) (hs : t.seeded = s.seeded)
    (hb : t.blkv = s.blkv) : ValidityKept s t := by
  constructor <;> simp [hk, hn, hs, hb]

theorem ValidityKept.refl (s : State) : ValidityKept s s := validityKept_of_eq rfl rfl rfl rfl

theorem ValidityKept.trans {s t u : State} (h : ValidityKept s t) (h' : ValidityKept t u) : ValidityKept s u :=
  ⟨fun j => h'.kv j ∘ h.kv j, fun j => h'.nv j ∘ h.nv j, h'.seeded ∘ h.seeded, fun j => h'.blkv j ∘ h.blkv j⟩

/-- COPY sets all of BLKV. -/
theorem validityKept_fullBlk (s : State) : ValidityKept s (withBlkv s 0xFFFF) where
  kv _ := id
  nv _ := id
  seeded := id
  blkv j hj := by
    have hlt : j < 16 := BitVec.lt_of_getLsbD hj
    exact (BitVec.getLsbD_allOnes (v := 16)).trans (decide_eq_true hlt)

theorem DataStep.validityKept {lo hi : Nat} {s t : State} (h : DataStep lo hi s t) : ValidityKept s t := by
  rw [h.regs]
  exact validityKept_of_eq rfl rfl rfl rfl

theorem validityKept_withBase (s : State) (b : Block) : ValidityKept s (withBase s b) := validityKept_of_eq rfl rfl rfl rfl

theorem validityKept_keptBySteps : KeptBySteps ValidityKept where
  refl := .refl
  trans := .trans
  start _ := validityKept_of_eq rfl rfl rfl rfl
  complete _ := validityKept_of_eq rfl rfl rfl rfl
  fault _ _ _ := validityKept_of_eq rfl rfl rfl rfl
  blk _ _ := validityKept_of_eq rfl rfl rfl rfl
  fullBlk := validityKept_fullBlk
  counter s n := validityKept_withBase s (counterAdd s.base n)
  bsize _ := validityKept_of_eq rfl rfl rfl rfl
  adv _ := validityKept_of_eq rfl rfl rfl rfl
  xorb s := (xorbBody_dataStep s).mono fun _ => DataStep.validityKept
  xorm s := (xormBody_dataStep s).mono fun _ => DataStep.validityKept

/-- SEED sets SEEDED (R77). -/
theorem seedBody_validityKept (s : State) : (seedBody s).All (ValidityKept s) :=
  all_guarded ⟨fun _ => id, fun _ => id, fun _ => rfl, fun _ => id⟩ (validityKept_keptBySteps.fault ..)

theorem exec_validityKept {i : Instr} {s t : State} (h : exec i s = .next t) : ValidityKept s t :=
  validityKept_keptBySteps.exec seedBody_validityKept h

/-! The form of the data space (R37). -/

/-- The data space of `t` is canonical and inside `2^AW` if that of `s` is. -/
def MemoryKept (s t : State) : Prop := s.memoryInv → t.memoryInv

theorem DataStep.memoryKept {lo hi : Nat} {s t : State} (h : DataStep lo hi s t) (hhi : hi ≤ spaceSize s.cfg) :
    MemoryKept s t := by
  rintro ⟨hwf, hbelow⟩
  exact ⟨h.wf hwf, by rw [h.cfg_eq]; exact h.below _ hhi hbelow⟩

/-- XORB writes inside `2^AW`: a block that runs past it is refused whole (R99, R101). -/
theorem xorbBody_memoryKept (s : State) : (xorbBody s).All (MemoryKept s) := by
  by_cases hin : blockStart s + s.bsz.val ≤ spaceSize s.cfg
  · exact (xorbBody_dataStep s).mono fun t ht => ht.memoryKept hin
  · unfold xorbBody
    rw [if_pos (c := spaceSize s.cfg < blockStart s + s.bsz.val) (by omega)]
    split
    · exact id
    · split <;> exact id

/-- XORM writes inside `2^AW`: a span that runs past it is refused whole (R99, R102). -/
theorem xormBody_memoryKept (s : State) : (xormBody s).All (MemoryKept s) := by
  by_cases hin : s.daddr.toNat + s.dlen.toNat ≤ spaceSize s.cfg
  · exact (xormBody_dataStep s).mono fun t ht => ht.memoryKept hin
  · unfold xormBody
    rw [if_pos (c := spaceSize s.cfg < s.daddr.toNat + s.dlen.toNat ∨ _) (.inl (by omega))]
    split <;> exact id

theorem memoryKept_withBase (s : State) (b : Block) : MemoryKept s (withBase s b) := id

theorem memoryKept_keptBySteps : KeptBySteps MemoryKept where
  refl _ := id
  trans h h' := h' ∘ h
  start _ := id
  complete _ := id
  fault _ _ _ := id
  blk _ _ := id
  fullBlk _ := id
  counter s n := memoryKept_withBase s (counterAdd s.base n)
  bsize _ := id
  adv _ := id
  xorb := xorbBody_memoryKept
  xorm := xormBody_memoryKept

theorem exec_memoryKept {i : Instr} {s t : State} (h : exec i s = .next t) : MemoryKept s t :=
  memoryKept_keptBySteps.exec (fun _ => all_guarded id id) h

/-! The sequencer (R29). -/

/-- From the sequencer invariants, `t` meets them too and has the same `OFF + REM`. -/
def SequencerKept (s t : State) : Prop :=
  s.sequencerInv → t.sequencerInv ∧ t.off.toNat + t.rem.toNat = s.off.toNat + s.rem.toNat

theorem SequencerKept.refl (s : State) : SequencerKept s s := fun h => ⟨h, rfl⟩

theorem SequencerKept.trans {s t u : State} (h : SequencerKept s t) (h' : SequencerKept t u) : SequencerKept s u := by
  intro hs
  obtain ⟨ht, hsum⟩ := h hs
  obtain ⟨hu, hsum'⟩ := h' ht
  exact ⟨hu, hsum'.trans hsum⟩

/-- BSIZE chooses at most `REM` bytes (R78). -/
theorem bsizeBody_sequencerKept (s : State) : (bsizeBody s).All (SequencerKept s) := by
  rintro ⟨-, hsum, hseed⟩
  exact ⟨⟨Nat.min_le_right .., hsum, hseed⟩, rfl⟩

/-- ADV moves `BSZ` bytes from `REM` to `OFF` (R83). -/
theorem advBody_sequencerKept (s : State) : (advBody s).All (SequencerKept s) := by
  rintro ⟨hbsz, hsum, hseed⟩
  have hoff := adv_off ⟨hbsz, hsum⟩
  have hrem := adv_rem ⟨hbsz, hsum⟩
  refine ⟨⟨Nat.zero_le _, ?_, fun hne => hseed fun h0 => hne ?_⟩, ?_⟩
  · simp only [withSequencer_off, withSequencer_rem, withSequencer_cfg, hoff, hrem]
    omega
  · apply BitVec.eq_of_toNat_eq
    rw [withSequencer_rem, hrem, h0]
    exact Nat.zero_sub _
  · simp only [withSequencer_off, withSequencer_rem, hoff, hrem]
    omega

theorem DataStep.sequencerKept {lo hi : Nat} {s t : State} (h : DataStep lo hi s t) : SequencerKept s t := by
  rw [h.regs]
  exact fun hs => ⟨hs, rfl⟩

theorem sequencerKept_withBase (s : State) (b : Block) : SequencerKept s (withBase s b) := fun h => ⟨h, rfl⟩

theorem sequencerKept_keptBySteps : KeptBySteps SequencerKept where
  refl := .refl
  trans := .trans
  start _ h := ⟨h, rfl⟩
  complete _ h := ⟨h, rfl⟩
  fault _ _ _ h := ⟨h, rfl⟩
  blk _ _ h := ⟨h, rfl⟩
  fullBlk _ h := ⟨h, rfl⟩
  counter s n := sequencerKept_withBase s (counterAdd s.base n)
  bsize := bsizeBody_sequencerKept
  adv := advBody_sequencerKept
  xorb s := (xorbBody_dataStep s).mono fun _ => DataStep.sequencerKept
  xorm s := (xormBody_dataStep s).mono fun _ => DataStep.sequencerKept

/-- The commands that restart the sequencer: a SEED or APPLY with a whole key and nonce (R77, R110). -/
def Restarts (i : Instr) (s : State) : Prop := (i = .seed ∨ i = .apply) ∧ s.kv = 0xFF ∧ s.nv = 0xF

/-- Every other command keeps the sequencer invariants and `OFF + REM`. -/
theorem bodyOf_sequencerKept {i : Instr} {s : State} (h : ¬Restarts i s) : (bodyOf i s).All (SequencerKept s) := by
  refine sequencerKept_keptBySteps.bodyOf fun hi => ?_
  rw [seedBody_notReady fun hk => h ⟨hi, hk⟩]
  exact sequencerKept_keptBySteps.fault s .notReady 0

/-- The sequencer runs over `n` bytes and its invariants hold. -/
def SequencerOver (n : Nat) (t : State) : Prop := t.sequencerInv ∧ t.off.toNat + t.rem.toNat = n

theorem seedBody_sequencerOver {s : State} (hk : s.kv = 0xFF ∧ s.nv = 0xF) (hd : s.dlen.toNat < spaceSize s.cfg) :
    (seedBody s).All (SequencerOver s.dlen.toNat) := by
  rw [seedBody_ready hk]
  have hsum : (0 : Addr).toNat + s.dlen.toNat = s.dlen.toNat := Nat.zero_add _
  exact ⟨⟨Nat.zero_le _, hsum.trans_lt hd, fun _ => rfl⟩, hsum⟩

/-- SEED, and APPLY even if its loop faults, leave a sequencer over `DLEN` bytes (R77, R87). -/
theorem bodyOf_sequencerOver {i : Instr} {s : State} (h : Restarts i s) (hd : s.dlen.toNat < spaceSize s.cfg) :
    (bodyOf i s).All (SequencerOver s.dlen.toNat) := by
  obtain ⟨rfl | rfl, hk⟩ := h
  · exact seedBody_sequencerOver hk hd
  · refine (seedBody_sequencerOver hk hd).andThen fun t ⟨ht, hsum⟩ => (sequencerKept_keptBySteps.loop _ t).mono fun u hu => ?_
    obtain ⟨hinv, hsum'⟩ := hu ht
    exact ⟨hinv, hsum'.trans hsum⟩

theorem bodyOf_sequencerInv (i : Instr) {s : State} (h : s.sequencerInv) (hd : s.dlen.toNat < spaceSize s.cfg) :
    (bodyOf i s).All State.sequencerInv := by
  by_cases hr : Restarts i s
  · exact (bodyOf_sequencerOver hr hd).mono fun _ ht => ht.1
  · exact (bodyOf_sequencerKept hr).mono fun _ ht => (ht h).1

/-! The base state (R22). -/

/-- The words of BASE that satisfy `P` are the same. -/
def BaseKept (P : Fin 16 → Prop) (s t : State) : Prop := ∀ j, P j → t.base[j] = s.base[j]

theorem baseKept_of_eq {P : Fin 16 → Prop} {s t : State} (h : t.base = s.base) : BaseKept P s t := fun j _ => by rw [h]

theorem BaseKept.trans {P : Fin 16 → Prop} {s t u : State} (h : BaseKept P s t) (h' : BaseKept P t u) : BaseKept P s u :=
  fun j hj => (h' j hj).trans (h j hj)

theorem DataStep.base_eq {lo hi : Nat} {s t : State} (h : DataStep lo hi s t) : t.base = s.base := by rw [h.regs]

/-- A command keeps the words of BASE that its body keeps. -/
theorem command_baseKept {P : Fin 16 → Prop} {body : State → Flow} (hbody : ∀ s, (body s).All (BaseKept P s)) (s : State) :
    BaseKept P s (command body s) :=
  command_rel (fun _ => baseKept_of_eq rfl) .trans (fun _ => baseKept_of_eq rfl) (fun _ => baseKept_of_eq rfl) hbody s

/-- The commands by which word `j` of BASE can change (R22, R80). -/
def WritesBase (i : Instr) (j : Fin 16) : Prop :=
  i = .seed ∨ i = .apply ∨ j.val < 4 ∧ (i = .ctrinc ∨ i = .block)

/-- Words 4 to 15 of BASE are kept by all but SEED: CTRINC adds to words 0 to 3 only (R80). -/
theorem baseKept_keptBySteps : KeptBySteps (BaseKept fun j => ¬j.val < 4) where
  refl _ := baseKept_of_eq rfl
  trans := .trans
  start _ := baseKept_of_eq rfl
  complete _ := baseKept_of_eq rfl
  fault _ _ _ := baseKept_of_eq rfl
  blk _ _ := baseKept_of_eq rfl
  fullBlk _ := baseKept_of_eq rfl
  counter s n j hj := by simp [hj]
  bsize _ := baseKept_of_eq rfl
  adv _ := baseKept_of_eq rfl
  xorb s := (xorbBody_dataStep s).mono fun _ h => baseKept_of_eq h.base_eq
  xorm s := (xormBody_dataStep s).mono fun _ h => baseKept_of_eq h.base_eq

/-- A command's body keeps every word of BASE that the command may not write. -/
theorem bodyOf_baseKept (i : Instr) (s : State) : (bodyOf i s).All (BaseKept (fun j => ¬WritesBase i j) s) := by
  have hfault : (enterFault s .notReady 0).base = s.base := rfl
  cases i with
  | seed => exact all_of_forall (fun _ _ hj => absurd (.inl rfl) hj) _
  | apply => exact all_of_forall (fun _ _ hj => absurd (.inr (.inl rfl)) hj) _
  | ctrinc =>
    exact (baseKept_keptBySteps.ctrinc s).mono fun _ h j hj => h j fun h4 => hj (.inr (.inr ⟨h4, .inl rfl⟩))
  | block =>
    exact (baseKept_keptBySteps.block s).mono fun _ h j hj => h j fun h4 => hj (.inr (.inr ⟨h4, .inr rfl⟩))
  | copy => exact all_guarded (baseKept_of_eq (withBlk_base s s.base)) (baseKept_of_eq hfault)
  | mix => exact all_guarded (baseKept_of_eq (withBlk_base ..)) (baseKept_of_eq hfault)
  | fold => exact all_guarded (baseKept_of_eq (withBlk_base ..)) (baseKept_of_eq hfault)
  | xorb => exact (xorbBody_dataStep s).mono fun _ h => baseKept_of_eq h.base_eq
  | xorm => exact (xormBody_dataStep s).mono fun _ h => baseKept_of_eq h.base_eq
  | nop | bsize | adv => exact baseKept_of_eq rfl

/-- A command changes only the words of BASE it may write. -/
theorem writesBase_of_exec {i : Instr} {s t : State} (h : exec i s = .next t) {j : Fin 16} (hj : t.base[j] ≠ s.base[j]) :
    WritesBase i j := by
  rw [exec_eq] at h
  cases h
  exact not_not.mp (mt (command_baseKept (bodyOf_baseKept i) s j) hj)

end Sys2Proof.Machine
end

