-- ==== Sys2Proof/Proofs/HostWrites.lean ====
section
/-! PROOFS. What a register write and a reset of the host do (R105, R124). -/

namespace Sys2Proof.Machine

/-- A ready engine stores a write to any register but CMD (R105). -/
theorem step_store {s : State} {r : Reg} {v : Word} {rest : List HostStep} (hs : s.ready) (hr : r ≠ .cmd)
    (h : s.host = .write r.offset 4 v :: rest) : step s = .next (storeReg r v { s with host := rest }) :=
  (step_write h).trans (writeReg_other (gated_eq_false.mpr hs) hr)

theorem step_reset {s : State} {rest : List HostStep} (h : s.host = .reset :: rest) :
    step s = .next (resetEngine { s with host := rest }) := by
  simp only [step, hostTurn, h, hostStep]

@[simp] theorem storeReg_cfg (r : Reg) (v : Word) (s : State) : (storeReg r v s).cfg = s.cfg := by cases r <;> rfl

@[simp] theorem storeReg_base (r : Reg) (v : Word) (s : State) : (storeReg r v s).base = s.base := by cases r <;> rfl

theorem getLsbD_setBit_of_getLsbD {n : Nat} {m : BitVec n} (i : Nat) {j : Nat} (h : m.getLsbD j = true) :
    (setBit m i).getLsbD j = true := by
  rw [setBit_get m i (BitVec.lt_of_getLsbD h), h, Bool.true_or]

/-- A store sets validity bits and clears none (R33, R105). -/
theorem storeReg_validityKept (r : Reg) (v : Word) (s : State) : ValidityKept s (storeReg r v s) := by
  cases r with
  | key i => exact ⟨fun _ => getLsbD_setBit_of_getLsbD _, fun _ => id, id, fun _ => id⟩
  | nonce i => exact ⟨fun _ => id, fun _ => getLsbD_setBit_of_getLsbD _, id, fun _ => id⟩
  | blk i => exact ⟨fun _ => id, fun _ => id, id, fun _ => getLsbD_setBit_of_getLsbD _⟩
  | _ => exact validityKept_of_eq rfl rfl rfl rfl

/-- A store keeps the invariant: the halves of the `AW`-bit registers are narrowed (R27, R55). -/
theorem storeReg_inv {s : State} (h : s.Inv) (r : Reg) (v : Word) : (storeReg r v s).Inv := by
  obtain ⟨hseq, ⟨hdaddr, hsaddr, hdlen, hrest⟩, hstatus, hmem⟩ := h
  cases r with
  | daddrLo | daddrHi => exact ⟨hseq, ⟨narrow_lt .., hsaddr, hdlen, hrest⟩, hstatus, hmem⟩
  | saddrLo | saddrHi => exact ⟨hseq, ⟨hdaddr, narrow_lt .., hdlen, hrest⟩, hstatus, hmem⟩
  | dlenLo | dlenHi => exact ⟨hseq, ⟨hdaddr, hsaddr, narrow_lt .., hrest⟩, hstatus, hmem⟩
  | _ => exact ⟨hseq, ⟨hdaddr, hsaddr, hdlen, hrest⟩, hstatus, hmem⟩

/-- Reset brings the invariant about, except for the data space, which it leaves (R36). -/
theorem resetEngine_inv {s : State} (h : s.memoryInv) : (resetEngine s).Inv := by
  have h0 : (0 : Addr).toNat < spaceSize s.cfg := spaceSize_pos s.cfg
  exact ⟨⟨Nat.le_refl _, h0, fun hne => absurd rfl hne⟩, ⟨h0, h0, h0, h0, h0, h0⟩, ⟨rfl, rfl, fun _ => rfl, fun _ => rfl⟩, h⟩

/-- The write of one word of a register file and of its validity bit (R21, R24). -/
theorem loadWord_spec {n : Nat} (file : Vector Word n) (valid : BitVec n) (i : Fin n) (v : Word) :
    (file.set i v)[i] = v ∧ (∀ j : Fin n, j ≠ i → (file.set i v)[j] = file[j]) ∧
      ∀ j : Fin n, (setBit valid i).getLsbD j = (valid.getLsbD j || decide (j = i)) := by
  refine ⟨Vector.getElem_set_self _, fun j hj => ?_, fun j => ?_⟩
  · exact Vector.getElem_set_ne _ _ fun h => hj (Fin.ext h.symm)
  · rw [setBit_get valid i j.isLt]
    simp only [Fin.ext_iff]

theorem offset_key (i : Fin 8) : Reg.offset (.key i) = 0x040 + 4 * i.val := Nat.mul_add 4 16 i.val

theorem offset_nonce (i : Fin 4) : Reg.offset (.nonce i) = 0x060 + 4 * i.val := Nat.mul_add 4 24 i.val

theorem offset_blk (i : Fin 16) : Reg.offset (.blk i) = 0x0C0 + 4 * i.val := Nat.mul_add 4 48 i.val

/-- Settles O10: each of the three offsets is a register's, whose store is `loadWord_spec`. -/
theorem hostWriteLoadsWord : Obligations.HostWriteLoadsWord := by
  unfold Obligations.HostWriteLoadsWord
  intro s v rest hs
  refine ⟨fun i h => ?_, fun i h => ?_, fun i h => ?_⟩
  · rw [← offset_key] at h
    exact ⟨_, step_store (r := .key i) hs nofun h, rfl, loadWord_spec s.key s.kv i v⟩
  · rw [← offset_nonce] at h
    exact ⟨_, step_store (r := .nonce i) hs nofun h, rfl, loadWord_spec s.nonce s.nv i v⟩
  · rw [← offset_blk] at h
    exact ⟨_, step_store (r := .blk i) hs nofun h, rfl, loadWord_spec s.blk s.blkv i v⟩

/-- Settles O11: the store of a half is `withLo` or `withHi`, whose numbers are known. -/
theorem hostWriteReplacesHalf : Obligations.HostWriteReplacesHalf := by
  unfold Obligations.HostWriteReplacesHalf
  intro s v rest hs
  exact ⟨fun h => ⟨_, withLo_toNat s.cfg s.daddr v, step_store (r := .daddrLo) hs nofun h⟩,
    fun h => ⟨_, withHi_toNat s.cfg s.daddr v, step_store (r := .daddrHi) hs nofun h⟩,
    fun h => ⟨_, withLo_toNat s.cfg s.dlen v, step_store (r := .dlenLo) hs nofun h⟩,
    fun h => ⟨_, withHi_toNat s.cfg s.dlen v, step_store (r := .dlenHi) hs nofun h⟩,
    fun h => ⟨_, withLo_toNat s.cfg s.saddr v, step_store (r := .saddrLo) hs nofun h⟩,
    fun h => ⟨_, withHi_toNat s.cfg s.saddr v, step_store (r := .saddrHi) hs nofun h⟩⟩

/-- Settles O16: the register files are replicated zeros, every other field is the number 0. -/
theorem resetStateIsZero : Obligations.ResetStateIsZero := by
  unfold Obligations.ResetStateIsZero
  exact ⟨fun i => Vector.getElem_replicate i.isLt, fun i => Vector.getElem_replicate i.isLt,
    fun i => Vector.getElem_replicate i.isLt, fun i => Vector.getElem_replicate i.isLt, by decide⟩

/-- Settles O17: the state a reset leaves, field by field. -/
theorem resetStepClearsRegisters : Obligations.ResetStepClearsRegisters := by
  unfold Obligations.ResetStepClearsRegisters
  intro s rest h
  rw [step_reset h]
  rfl

/-- Settles O18: the reset state is what reset leaves of an empty data space. -/
theorem invariantHoldsAtReset : Obligations.InvariantHoldsAtReset :=
  resetEngine_inv (s := State.reset) ⟨wf_reset, rfl⟩

end Sys2Proof.Machine
end

