-- ==== Sys2Proof/Proofs/StepInvariants.lean ====
section
/-! PROOFS. What every command and every step keeps: the invariants of rule R29 and its neighbours, the status (R31), the validity
bits (R33), the host's registers (R19, R20, R27), BASE (R22) and the parameters (R18). -/

namespace Sys2Proof.Machine

/-- A command given to a ready engine leaves the status of a completed one or of a fault just taken (R31, R113). -/
theorem command_outcome {body : State → Flow} (hbody : ∀ u, (body u).Status u) {s : State} (h : s.ready) :
    SameStatus (completeCommand s) (command body s) ∨ TookFault (startCommand s) (command body s) := by
  have hst : (body (startCommand s)).Status (startCommand s) := hbody _
  rw [command_ready h]
  cases hb : body (startCommand s) with
  | ok t =>
    rw [hb] at hst
    exact .inl ⟨hst.fault, rfl, rfl, hst.cause, hst.faddr, hst.cfg⟩
  | raised t =>
    rw [hb] at hst
    exact .inr hst

/-- A command keeps what R31 and R32 say of the status and the fault address. -/
theorem command_statusInv {body : State → Flow} (hbody : ∀ u, (body u).Status u) {s : State} (h : s.statusInv)
    (hfaddr : s.faddr.toNat < spaceSize s.cfg) :
    (command body s).statusInv ∧ (command body s).faddr.toNat < spaceSize s.cfg := by
  cases hg : gated s with
  | true =>
    rw [command_gated hg]
    exact ⟨h, hfaddr⟩
  | false =>
    have hr : s.ready := gated_eq_false.mp hg
    obtain ⟨-, hcause, -, hzero⟩ := h
    obtain hc | hf := command_outcome hbody hr
    · refine ⟨⟨hc.busy, ?_, ?_, fun _ => hc.faddr.trans (hzero hr.1)⟩, by rwa [hc.faddr]⟩
      · rw [hc.fault, hc.cause]
        exact hcause
      · rw [hc.fault]
        exact fun hfault => absurd hfault (by simp [hr.1])
    · refine ⟨⟨hf.busy, hf.fault.trans hf.cause.symm, fun _ => hf.done, fun hfault => ?_⟩, hf.faddr⟩
      exact absurd (hf.fault.symm.trans hfault) (by decide)

/-- What a command leaves meets the invariant, if its body keeps the host's registers, the status, the sequencer invariants and
the form of the data space. -/
theorem command_inv {body : State → Flow} (hhost : ∀ u, (body u).All (HostSide u)) (hstatus : ∀ u, (body u).Status u)
    {s : State} (h : s.Inv) (hseq : (body (startCommand s)).All State.sequencerInv) (hmem : (command body s).memoryInv) :
    (command body s).Inv := by
  obtain ⟨hseq0, ⟨hdaddr, hsaddr, hdlen, -, -, hfaddr⟩, hstatus0, -⟩ := h
  have hside : HostSide s (command body s) := command_hostSide hhost s
  have hseq' : (command body s).sequencerInv := command_all hseq0 hseq fun _ => id
  obtain ⟨hst, hfaddr'⟩ := command_statusInv hstatus hstatus0 hfaddr
  obtain ⟨-, hsum, -⟩ := id hseq'
  refine ⟨hseq', ?_, hst, hmem⟩
  rw [State.widthInv, hside.daddr, hside.saddr, hside.dlen]
  rw [hside.cfg] at hsum ⊢
  exact ⟨hdaddr, hsaddr, hdlen, (Nat.le_add_right ..).trans_lt hsum, (Nat.le_add_left ..).trans_lt hsum, hfaddr'⟩

theorem exec_inv {i : Instr} {s t : State} (h : s.Inv) (he : exec i s = .next t) : t.Inv := by
  obtain ⟨hseq, ⟨-, -, hdlen, -⟩, -, hmem⟩ := id h
  have hmem' : t.memoryInv := exec_memoryKept he hmem
  rw [exec_eq] at he
  cases he
  exact command_inv (bodyOf_hostSide i) (bodyOf_status i) h (bodyOf_sequencerInv i hseq hdlen) hmem'

theorem illegal_inv {s : State} (h : s.Inv) (n : Nat) : (command (fun u => raise u .illegal n) s).Inv := by
  obtain ⟨hseq, -, -, hmem⟩ := id h
  exact command_inv (body := fun u => raise u .illegal n) (fun u => hostSide_enterFault u _ _) (fun u => status_raise u _ _)
    h hseq (memoryKept_keptBySteps.illegal n s hmem)

/-- Settles O19: by the kinds of host step; a command is `exec_inv`. -/
theorem everyStepKeepsInvariant : Obligations.EveryStepKeepsInvariant := by
  unfold Obligations.EveryStepKeepsInvariant
  intro s t h hstep
  obtain ⟨-, -, -, hmem⟩ := id h
  obtain ⟨-, rfl⟩ | ⟨rest, -, rfl⟩ | ⟨r, rest, -, rfl⟩ | ⟨r, v, rest, -, -, rfl⟩ | ⟨r, v, rest, -, -, -, rfl⟩ |
    ⟨i, rest, -, -, he⟩ | ⟨w, rest, -, -, -, rfl⟩ := step_cases hstep
  · exact h
  · exact resetEngine_inv (s := { s with host := rest }) hmem
  · exact h
  · exact h
  · exact storeReg_inv (s := { s with host := rest }) h r v
  · exact exec_inv (s := { s with host := rest }) h he
  · exact illegal_inv (s := { s with host := rest }) h w.toNat

/-- Settles O20: a SEED or APPLY with a whole key and nonce makes the sum DLEN, every other body keeps it. -/
theorem offPlusRemIsSeedLength : Obligations.OffPlusRemIsSeedLength := by
  unfold Obligations.OffPlusRemIsSeedLength
  intro i s t ⟨hseq, ⟨_, _, hdlen, _⟩, _⟩ he
  rw [exec_eq] at he
  cases he
  constructor
  · rintro ⟨hi, hready, hk⟩
    rw [command_ready hready]
    exact (settle_all (bodyOf_sequencerOver (s := startCommand s) ⟨hi, hk⟩ hdlen) fun _ => id).2
  · intro hnot
    cases hg : gated s with
    | true => rw [command_gated hg]
    | false =>
      have hready : s.ready := gated_eq_false.mp hg
      have hr : ¬Restarts i (startCommand s) := fun hr => hnot ⟨hr.1, hready, hr.2⟩
      rw [command_ready hready]
      exact (settle_all (bodyOf_sequencerKept hr) (fun _ => id) hseq).2

/-! The status word of the two ends of a command (R31). -/

theorem statusWord_completed {s : State} (hf : s.fault = false) (hb : s.busy = false) (hd : s.done = true)
    (hc : s.cause = none) : statusWord s = 0x00000002 := by
  rw [statusWord, hf, hb, hd, hc]
  rfl

theorem statusWord_faulted {s : State} {c : Cause} (hf : s.fault = true) (hb : s.busy = false) (hd : s.done = false)
    (hc : s.cause = some c) : statusWord s = 0x00000004 ||| ((causeCode c).setWidth 32 <<< 4) := by
  rw [statusWord, hf, hb, hd, hc]
  cases c <;> rfl

/-- Settles O21: the two outcomes of `command_outcome`, with the status word of each. -/
theorem commandCompletesOrFaults : Obligations.CommandCompletesOrFaults := by
  unfold Obligations.CommandCompletesOrFaults
  intro i s hready hnone
  refine ⟨_, exec_eq i s, ?_⟩
  obtain hc | hf := command_outcome (bodyOf_status i) hready
  · have hfault := hc.fault.trans hready.1
    have hcause := hc.cause.trans hnone
    exact .inl ⟨hfault, hcause, statusWord_completed hfault hc.busy hc.done hcause⟩
  · obtain ⟨c, hcause⟩ := Option.isSome_iff_exists.mp hf.cause
    exact .inr ⟨c, hf.fault, hcause, statusWord_faulted hf.fault hf.busy hf.done hcause⟩

/-- Every step but reset keeps the validity bits. -/
theorem step_validityKept {s t : State} (hreset : s.host.head? ≠ some .reset) (h : step s = .next t) : ValidityKept s t := by
  have hnext (rest : List HostStep) : ValidityKept s { s with host := rest } := validityKept_of_eq rfl rfl rfl rfl
  obtain ⟨-, rfl⟩ | ⟨rest, hh, -⟩ | ⟨r, rest, -, rfl⟩ | ⟨r, v, rest, -, -, rfl⟩ | ⟨r, v, rest, -, -, -, rfl⟩ |
    ⟨i, rest, -, -, he⟩ | ⟨w, rest, -, -, -, rfl⟩ := step_cases h
  · exact .refl _
  · exact absurd (congrArg List.head? hh) hreset
  · exact validityKept_of_eq rfl rfl rfl rfl
  · exact hnext rest
  · exact (hnext rest).trans (storeReg_validityKept r v _)
  · exact (hnext rest).trans (exec_validityKept he)
  · exact (hnext rest).trans (validityKept_keptBySteps.illegal w.toNat _)

/-- Settles O23: `step_validityKept`, bit by bit. -/
theorem onlyResetClearsValidity : Obligations.OnlyResetClearsValidity := by
  unfold Obligations.OnlyResetClearsValidity
  intro s t hreset h
  obtain ⟨hkv, hnv, hseeded, hblkv⟩ := step_validityKept hreset h
  exact ⟨hkv, hnv, hseeded, hblkv⟩

/-- Settles O24: `exec_hostSide`, register by register. -/
theorem commandsKeepHostRegisters : Obligations.CommandsKeepHostRegisters := by
  unfold Obligations.CommandsKeepHostRegisters
  intro i s t h
  obtain ⟨hkey, hnonce, hdaddr, hsaddr, hdlen, hkv, hnv, hcfg, hhost, hreads⟩ := exec_hostSide h
  exact ⟨hkey, hnonce, hkv, hnv, hdaddr, hsaddr, hdlen, hcfg, hhost, hreads⟩

/-- Settles O25: of the host steps other than reset only a command reaches BASE. -/
theorem onlyDriverWritesBase : Obligations.OnlyDriverWritesBase := by
  unfold Obligations.OnlyDriverWritesBase
  intro s t h j hj
  obtain ⟨-, rfl⟩ | ⟨rest, hh, -⟩ | ⟨r, rest, -, rfl⟩ | ⟨r, v, rest, -, -, rfl⟩ | ⟨r, v, rest, -, -, -, rfl⟩ |
    ⟨i, rest, hh, -, he⟩ | ⟨w, rest, -, -, -, rfl⟩ := step_cases h
  · exact absurd rfl hj
  · exact .inl (congrArg List.head? hh)
  · exact absurd rfl hj
  · exact absurd rfl hj
  · exact absurd (by rw [storeReg_base]) hj
  · exact .inr ⟨i, congrArg List.head? hh, writesBase_of_exec he hj⟩
  · exact absurd (command_baseKept (P := fun _ => True) (body := fun u => raise u .illegal w.toNat)
      (fun _ => baseKept_of_eq rfl) _ j trivial) hj

/-- Settles O26: no kind of host step has the configuration among what it writes. -/
theorem parametersNeverChange : Obligations.ParametersNeverChange := by
  unfold Obligations.ParametersNeverChange
  intro s t h
  obtain ⟨-, rfl⟩ | ⟨rest, -, rfl⟩ | ⟨r, rest, -, rfl⟩ | ⟨r, v, rest, -, -, rfl⟩ | ⟨r, v, rest, -, -, -, rfl⟩ |
    ⟨i, rest, -, -, he⟩ | ⟨w, rest, -, -, -, rfl⟩ := step_cases h
  · rfl
  · rfl
  · rfl
  · rfl
  · rw [storeReg_cfg]
  · exact (exec_hostSide he).cfg
  · exact (command_hostSide (body := fun u => raise u .illegal w.toNat) (fun u => hostSide_enterFault u _ _) _).cfg

end Sys2Proof.Machine
end

