-- ==== Sys2Proof/Proofs/DataAccesses.lean ====
section
/-! PROOFS. The accesses the commands make to the data space (R37, R49, R97): none, or those of the schedule. -/

namespace Sys2Proof.Machine

/-! The commands that make no access (R76, R104). -/

/-- The data space and the history of accesses are those of `s`. -/
structure DataKept (s t : State) : Prop where
  mem : t.mem = s.mem
  accesses : t.accesses = s.accesses

theorem DataKept.trans {s t u : State} (h : DataKept s t) (h' : DataKept t u) : DataKept s u :=
  ⟨h'.mem.trans h.mem, h'.accesses.trans h.accesses⟩

/-! For the bodies that compute a block: comparing the updated states whole would evaluate it. -/

theorem dataKept_withBlk (s : State) (b : Block) : DataKept s (withBlk s b) := ⟨rfl, rfl⟩

theorem dataKept_withBase (s : State) (b : Block) : DataKept s (withBase s b) := ⟨rfl, rfl⟩

/-- Of the updates of a body only `logAccess` and `withMem` reach the data space, and these commands make neither. -/
theorem bodyOf_dataKept {i : Instr} (hi : i ∈ [.nop, .seed, .bsize, .copy, .ctrinc, .mix, .fold, .adv]) (s : State) :
    (bodyOf i s).All (DataKept s) := by
  cases i with
  | nop | bsize | adv => exact ⟨rfl, rfl⟩
  | seed | copy => exact all_guarded ⟨rfl, rfl⟩ ⟨rfl, rfl⟩
  | ctrinc => exact all_guarded (dataKept_withBase s _) ⟨rfl, rfl⟩
  | mix | fold => exact all_guarded (dataKept_withBlk s _) ⟨rfl, rfl⟩
  | xorb | block | apply | xorm => exact absurd hi (by decide)

/-- Settles O27: the framing of a command (R59) does not reach the data space either. -/
theorem otherCommandsTouchNoMemory : Obligations.OtherCommandsTouchNoMemory := by
  unfold Obligations.OtherCommandsTouchNoMemory
  intro i s t hi he
  rw [exec_eq] at he
  cases he
  obtain ⟨hmem, hacc⟩ : DataKept s (command (bodyOf i) s) :=
    command_rel (fun _ => ⟨rfl, rfl⟩) .trans (fun _ => ⟨rfl, rfl⟩) (fun _ => ⟨rfl, rfl⟩) (bodyOf_dataKept hi) s
  exact ⟨hacc, fun a => by rw [hmem]⟩

/-! The commands that follow the schedule (R97). -/

/-- A command that a ready engine ends without a fault has performed its whole body (R14, R59). -/
theorem bodyOf_ok_of_exec {i : Instr} {s t : State} (hs : s.ready) (ht : t.fault = false) (h : exec i s = .next t) :
    ∃ u, bodyOf i (startCommand s) = .ok u ∧ t = completeCommand u := by
  have hst : (bodyOf i (startCommand s)).Status (startCommand s) := bodyOf_status i _
  rw [exec_ready hs] at h
  cases hb : bodyOf i (startCommand s) with
  | ok u =>
    rw [hb] at h
    cases h
    exact ⟨u, rfl, rfl⟩
  | raised u =>
    rw [hb] at h hst
    cases h
    exact absurd (hst.fault.symm.trans ht) (by decide)

/-- An XORB that goes through met the conditions under which its accesses are known (R101). -/
theorem xorbBody_accesses {s t : State} (h : xorbBody s = .ok t) :
    t.accesses = s.accesses ++ (sched s.bsz.val s.cfg.vw).flatMap fun ow => xorbAccesses (blockStart s) ow.1 ow.2 := by
  obtain ⟨hvalid, hin, hadm⟩ := xorbBody_inv h
  obtain ⟨u, hu, -, hacc, -⟩ := xorbBody_ok hvalid hin hadm
  rwa [Flow.ok.inj (h.symm.trans hu)]

/-- An XORM that goes through met the conditions under which its accesses are known (R102). -/
theorem xormBody_accesses {s t : State} (h : xormBody s = .ok t) :
    t.accesses = s.accesses ++
      (sched s.dlen.toNat s.cfg.vw).flatMap fun ow => xormAccesses s.daddr.toNat s.saddr.toNat ow.1 ow.2 := by
  obtain ⟨hin, hdisjoint, hsrc, hdst⟩ := xormBody_inv h
  obtain ⟨u, hu, -, hacc, -⟩ := xormBody_ok hin hdisjoint hsrc hdst
  rwa [Flow.ok.inj (h.symm.trans hu)]

/-- Settles O49: a completed XORB or XORM has performed its body, whose accesses are those of the schedule's chunks. -/
theorem accessesFollowSchedule : Obligations.AccessesFollowSchedule := by
  unfold Obligations.AccessesFollowSchedule
  intro s t hs ht
  constructor
  · intro h
    obtain ⟨u, hu, rfl⟩ := bodyOf_ok_of_exec hs ht h
    exact xorbBody_accesses (s := startCommand s) (t := u) hu
  · intro h
    obtain ⟨u, hu, rfl⟩ := bodyOf_ok_of_exec hs ht h
    exact xormBody_accesses (s := startCommand s) (t := u) hu

end Sys2Proof.Machine
end

