-- ==== Sys2Proof/Proofs/CommandWords.lean ====
section
/-! PROOFS. The command word (R58 to R62): the decoder and the encoder undo each other, and every other word is rejected by name. -/

namespace Sys2Proof

/-- The facts about a command's word, for all commands. -/
theorem encoding_statement (i : Instr) : Laws.Encoding.Statement i := by
  cases i
  · exact Laws.Encoding.nop
  · exact Laws.Encoding.seed
  · exact Laws.Encoding.bsize
  · exact Laws.Encoding.copy
  · exact Laws.Encoding.ctrinc
  · exact Laws.Encoding.mix
  · exact Laws.Encoding.fold
  · exact Laws.Encoding.xorb
  · exact Laws.Encoding.adv
  · exact Laws.Encoding.block
  · exact Laws.Encoding.apply
  · exact Laws.Encoding.xorm

@[simp] theorem decode_encode (i : Instr) : decode (encode i) = .ok i := by
  obtain ⟨-, -, -, hdecode, -⟩ := encoding_statement i
  exact hdecode

theorem eq_encode_of_decode {w : Word} {i : Instr} (h : decode w = .ok i) : w = encode i := by
  obtain ⟨j, hj, hw, -⟩ | ⟨hr, -⟩ | ⟨hm, -⟩ := decode_cases w
  · obtain rfl : i = j := Except.ok.inj (h.symm.trans hj)
    exact hw
  · exact absurd (h.symm.trans hr) nofun
  · exact absurd (h.symm.trans hm) nofun

/-- A word above the twelve commands is rejected (R62). -/
theorem decode_error {w : Word} (h : 12 ≤ w.toNat) : ∃ e, decode w = .error e := by
  obtain ⟨-, -, -, hlt⟩ | ⟨hr, -⟩ | ⟨hm, -⟩ := decode_cases w
  · exact absurd hlt (Nat.not_lt.mpr h)
  · exact ⟨_, hr⟩
  · exact ⟨_, hm⟩

/-- Settles O2: `decode_encode` one way, `eq_encode_of_decode` the other. -/
theorem decodeInvertsEncode : Obligations.DecodeInvertsEncode := by
  unfold Obligations.DecodeInvertsEncode
  exact ⟨fun i _ => decode_encode i, fun _ _ => eq_encode_of_decode⟩

/-- Settles O3: the three answers of `decode_cases` exclude each other, and so do the ranges of the words that get them. -/
theorem everyOtherWordIsIllegal : Obligations.EveryOtherWordIsIllegal := by
  unfold Obligations.EveryOtherWordIsIllegal
  intro w
  obtain ⟨i, hd, -, hn⟩ | ⟨hd, hlo, hhi⟩ | ⟨hd, hn⟩ := decode_cases w <;> rw [hd]
  · exact ⟨iff_of_true ⟨i, rfl⟩ hn, iff_of_false nofun (by omega), iff_of_false nofun (by omega)⟩
  · exact ⟨iff_of_false nofun (by omega), iff_of_true rfl ⟨hlo, hhi⟩, iff_of_false nofun (by omega)⟩
  · exact ⟨iff_of_false nofun (by omega), iff_of_false nofun (by omega), iff_of_true rfl hn⟩

/-- Settles O1: each of the twelve numbers is the word the encoder gives for the command. -/
theorem commandWordsDecode : Obligations.CommandWordsDecode := by
  unfold Obligations.CommandWordsDecode
  exact ⟨decode_encode .nop, decode_encode .seed, decode_encode .bsize, decode_encode .copy, decode_encode .ctrinc,
    decode_encode .mix, decode_encode .fold, decode_encode .xorb, decode_encode .adv, decode_encode .block,
    decode_encode .apply, decode_encode .xorm⟩

end Sys2Proof
end

