-- ==== Sys2Proof/Proofs/RegisterPort.lean ====
section
/-! PROOFS. The register map (R55 to R57), the bus transactions of the pseudo-operations (R64), and the host's writes: of CMD (R59),
of the slots that ignore it (R57), and of no slot at all (R56). -/

namespace Sys2Proof.Machine

/-! The map. -/

theorem offset_base (i : Fin 16) : Reg.offset (.base i) = 0x080 + 4 * i.val := Nat.mul_add 4 32 i.val

theorem ofSlot_isSome (k : Nat) : (Reg.ofSlot k).isSome = true ↔ k < 64 := by
  by_cases hk : k < 64
  · obtain ⟨r, hr, -⟩ := ofSlot_lt hk
    exact iff_of_true (by rw [hr]; rfl) hk
  · exact iff_of_false (by rw [ofSlot_ge (by omega)]; exact Bool.false_ne_true) hk

/-- The slots are the multiples of 4 below 0x100 (R55). -/
theorem ofOffset_isSome (o : Nat) : (Reg.ofOffset o).isSome = true ↔ o % 4 = 0 ∧ o < 0x100 := by
  unfold Reg.ofOffset
  split
  next h =>
    rw [ofSlot_isSome]
    omega
  next h => exact iff_of_false Bool.false_ne_true fun ho => h ho.1

/-- An access reaches a register exactly if it meets the three conditions of R56. -/
theorem busReg_isSome (o n : Nat) : (busReg o n).isSome = true ↔ n = 4 ∧ o % 4 = 0 ∧ o < 0x100 := by
  unfold busReg
  split
  next h => rw [ofOffset_isSome, and_iff_right h]
  next h => exact iff_of_false Bool.false_ne_true fun ho => h ho.1

/-- Settles O4: the offsets by the slot numbers; which offsets reach which register by the lemmas on `Reg.ofOffset`. -/
theorem registerMapIsExact : Obligations.RegisterMapIsExact := by
  unfold Obligations.RegisterMapIsExact
  exact ⟨by decide, offset_key, offset_nonce, offset_base, offset_blk, by decide, ofOffset_offset,
    fun _ _ => offset_of_ofOffset, ofOffset_isSome⟩

/-! The pseudo-operations. -/

theorem loHalf_toNat (a : Addr) : (loHalf a).toNat = a.toNat % 2 ^ 32 := by
  rw [loHalf, BitVec.extractLsb'_toNat, Nat.shiftRight_zero]

theorem hiHalf_toNat (a : Addr) : (hiHalf a).toNat = a.toNat / 2 ^ 32 := by
  have ha : a.toNat < 2 ^ 64 := a.isLt
  rw [hiHalf, BitVec.extractLsb'_toNat, Nat.shiftRight_eq_div_pow]
  omega

/-- Settles O5: a register file's words go to its own offsets; the two words of an address are its halves. -/
theorem pseudoOperationsExpand : Obligations.PseudoOperationsExpand := by
  unfold Obligations.PseudoOperationsExpand
  refine ⟨fun k => ?_, fun m => ?_, fun b => ?_, fun a => ?_, rfl, rfl⟩
  · simp only [lineSteps, busWrite, offset_key]
  · simp only [lineSteps, busWrite, offset_nonce]
  · simp only [lineSteps, busWrite, offset_blk]
  · exact ⟨loHalf a, hiHalf a, loHalf_toNat a, hiHalf_toNat a, rfl, rfl, rfl⟩

/-! A write of CMD. -/

/-- The write of a command's word is the command, in a gated engine too: both change nothing there (R59). -/
theorem writeReg_cmd_of_decode_ok {w : Word} {i : Instr} (h : decode w = .ok i) (s : State) :
    writeReg .cmd w s = exec i s := by
  cases hg : gated s with
  | true => rw [writeReg_gated hg, exec_gated i hg]
  | false => rw [writeReg_cmd hg, writeCmd, h]

/-- What a command that raises a fault at once leaves of a ready engine (R113, R114). -/
theorem command_raise {s : State} (h : s.ready) (c : Cause) (n : Nat) :
    command (fun u => raise u c n) s = faulted s c (narrow s.cfg n) := by
  rw [command_ready h]
  rfl

/-- The write of any other word to a ready engine raises ILLEGAL, whatever the word was rejected for (R59 step 3). -/
theorem writeReg_cmd_of_decode_error {w : Word} {e : Illegal} (hd : decode w = .error e) {s : State} (h : s.ready) :
    writeReg .cmd w s = .next (faulted s .illegal (narrow s.cfg w.toNat)) := by
  rw [writeReg_cmd (gated_eq_false.mpr h), writeCmd, hd, ← command_raise h]

/-- Settles O6: `writeReg_cmd_of_decode_ok`, after the host step has been taken. -/
theorem stepRunsDecodedCommand : Obligations.StepRunsDecodedCommand := by
  unfold Obligations.StepRunsDecodedCommand
  intro s w i rest h hd
  rw [step_write (r := .cmd) h, writeReg_cmd_of_decode_ok hd]

/-- Settles O7: the word is rejected (`decode_error`), and the fault address is the word narrowed to `AW` bits. -/
theorem illegalWordFaults : Obligations.IllegalWordFaults := by
  unfold Obligations.IllegalWordFaults
  intro s w rest hs h hw
  obtain ⟨e, he⟩ := decode_error hw
  exact ⟨narrow s.cfg w.toNat, narrow_toNat s.cfg w.toNat,
    (step_write (r := .cmd) h).trans (writeReg_cmd_of_decode_error he hs)⟩

/-- Settles O9: a gated engine is a faulted or a busy one. -/
theorem gatedCommandChangesNothing : Obligations.GatedCommandChangesNothing := by
  unfold Obligations.GatedCommandChangesNothing
  intro i s h
  exact exec_gated i (Bool.or_eq_true_iff.mpr h)

/-! Writes without an effect. -/

/-- A write to a slot that stores nothing is ignored, whether the engine is gated or not (R57, R105). -/
theorem writeReg_eq_next {r : Reg} {v : Word} {s : State} (hr : r ≠ .cmd) (hstore : storeReg r v s = s) :
    writeReg r v s = .next s := by
  cases hg : gated s with
  | true => exact writeReg_gated hg
  | false => rw [writeReg_other hg hr, hstore]

/-- Settles O12: no read-only or reserved slot is CMD, and none stores what is written to it. -/
theorem readOnlySlotIgnoresWrite : Obligations.ReadOnlySlotIgnoresWrite := by
  unfold Obligations.ReadOnlySlotIgnoresWrite
  intro s r v rest hr h
  obtain ⟨hne, hstore⟩ : r ≠ .cmd ∧ storeReg r v { s with host := rest } = { s with host := rest } := by
    obtain hr | ⟨i, rfl⟩ | ⟨i, rfl⟩ := hr
    · fin_cases hr <;> exact ⟨nofun, rfl⟩
    · exact ⟨nofun, rfl⟩
    · exact ⟨nofun, rfl⟩
  rw [step_write h, writeReg_eq_next hne hstore]

/-! Accesses that reach no register. -/

theorem step_write_unmapped {s : State} {o n : Nat} {v : Word} {rest : List HostStep} (hbus : busReg o n = none)
    (h : s.host = .write o n v :: rest) : step s = .refused (.badBusAccess o n) := by
  simp only [step, hostTurn, h, hostStep, hbus]

theorem step_read_unmapped {s : State} {o n : Nat} {rest : List HostStep} (hbus : busReg o n = none)
    (h : s.host = .read o n :: rest) : step s = .refused (.badBusAccess o n) := by
  simp only [step, hostTurn, h, hostStep, hbus]

/-- Settles O14: an access that misses one of the three conditions reaches no register. -/
theorem nonRegisterAccessHasNoStep : Obligations.NonRegisterAccessHasNoStep := by
  unfold Obligations.NonRegisterAccessHasNoStep
  intro s o n v rest hbad
  have hbus : busReg o n = none := Option.not_isSome_iff_eq_none.mp (mt (busReg_isSome o n).mp hbad)
  exact ⟨step_write_unmapped hbus, step_read_unmapped hbus⟩

end Sys2Proof.Machine
end

