-- ==== Sys2Proof/Proofs/MixRound.lean ====
section
/-! PROOFS. The round function and MIX (R65 to R73): the two loops visit each lane four times, which gives the closed form of R71;
and a top bit travels through it by addition, except where it is rotated (R94). -/

namespace Sys2Proof.Machine

/-! The loops. -/

/-- In a loop over distinct indices whose step for `k` alone touches a component, the component is touched once. -/
theorem foldl_component {σ ι α : Type} [DecidableEq ι] {step : σ → ι → σ} {get : σ → α} {k : ι} {f : α → α}
    (hstep : ∀ b i, get (step b i) = if i = k then f (get b) else get b) {is : List ι} (hnd : is.Nodup) (b : σ) :
    get (is.foldl step b) = if k ∈ is then f (get b) else get b := by
  induction is generalizing b with
  | nil => simp
  | cons i is ih =>
    obtain ⟨hi, hnd⟩ := List.nodup_cons.mp hnd
    rw [List.foldl_cons, ih hnd, hstep]
    by_cases h : i = k
    · subst h
      simp [hi]
    · simp [h, Ne.symm h]

theorem ror32_eq_rotateRight (x : Word) {n : Nat} (h : n < 32) : ror32 x n = x.rotateRight n := by
  rw [BitVec.rotateRight_def, Nat.mod_eq_of_lt h, ror32]

theorem rotation_lt (j : Fin 4) : rotation j < 32 := by
  fin_cases j <;> decide

/-- One round of lane `(j, l)`, with its operands from the snapshots of `x` (R69, R71). -/
def roundOf (x : Block) (j l : Fin 4) : Word → Word :=
  laneRound (snapshot x (j + 1) l) ((snapshot x (j + 3) (l + 1)).rotateRight (rotation j)) (snapshot x (j + 2) (l + 2))

/-- One update at lane `l` is a round of the lane of its own chunk. -/
theorem laneUpdate_get_lane (x : Block) (l : Fin 4) (b : Block) (i j : Fin 4) :
    (laneUpdate x l b i)[laneIdx j l] = if i = j then roundOf x j l b[laneIdx j l] else b[laneIdx j l] := by
  rw [laneUpdate_get]
  split
  next h =>
    obtain ⟨rfl, -⟩ := h
    rw [if_pos rfl, ror32_eq_rotateRight _ (rotation_lt j)]
    rfl
  next h => rw [if_neg fun hi => h ⟨hi.symm, rfl⟩]

theorem mixRound_get_same (x : Block) (l : Fin 4) (b : Block) (j : Fin 4) :
    (mixRound x l b)[laneIdx j l] = roundOf x j l b[laneIdx j l] :=
  (foldl_component (get := fun b : Block => b[laneIdx j l]) (fun b i => laneUpdate_get_lane x l b i j) (by decide) b).trans
    (if_pos (by decide +revert))

theorem mixRound_get_other (x : Block) {l l' : Fin 4} (h : l' ≠ l) (b : Block) (j : Fin 4) :
    (mixRound x l b)[laneIdx j l'] = b[laneIdx j l'] :=
  List.foldlRecOn (motive := fun d => d[laneIdx j l'] = b[laneIdx j l']) _ _ rfl fun d hd i _ => by
    rw [laneUpdate_get, if_neg fun hjl => h hjl.2, hd]

/-- The four rounds at lane `i`, on the words of lane `l` (R68). -/
theorem mixLane_get (x b : Block) (i j l : Fin 4) :
    (mixLane x b i)[laneIdx j l] = if i = l then (roundOf x j l)^[4] b[laneIdx j l] else b[laneIdx j l] := by
  rw [mixLane]
  split
  next h =>
    subst h
    rw [mixRound_get_same, mixRound_get_same, mixRound_get_same, mixRound_get_same]
    rfl
  next h =>
    have hl := Ne.symm h
    rw [mixRound_get_other x hl, mixRound_get_other x hl, mixRound_get_other x hl, mixRound_get_other x hl]

/-- The closed form of the round function (R71). -/
theorem mix_get (x : Block) (j l : Fin 4) :
    (mix x)[laneIdx j l] =
      laneResult (snapshot x (j + 1) l) ((snapshot x (j + 3) (l + 1)).rotateRight (rotation j))
        (snapshot x (j + 2) (l + 2)) x[laneIdx j l] :=
  (foldl_component (get := fun b : Block => b[laneIdx j l]) (fun b i => mixLane_get x b i j l) (by decide) x).trans
    (if_pos (by decide +revert))

/-! The command. -/

theorem exec_mix_ready {s : State} {b : Block} (hs : s.ready) (h : s.blkv = 0xFFFF) (hb : mix s.blk = b) :
    exec .mix s = .next (completed { s with blk := b }) := by
  rw [exec_ready hs, bodyOf, mixBody_ready (s := startCommand s) h, ← hb]
  rfl

theorem exec_mix_notReady {s : State} (hs : s.ready) (h : s.blkv ≠ 0xFFFF) :
    exec .mix s = .next (faulted s .notReady 0) := by
  rw [exec_ready hs, bodyOf, mixBody_notReady (s := startCommand s) h]
  simp [raise, enterFault, startCommand, faulted, narrow]

/-- Settles O34: what MIX leaves is `mix` of BLK, whose words `mix_get` gives. -/
theorem mixIteratesLaneRound : Obligations.MixIteratesLaneRound := by
  unfold Obligations.MixIteratesLaneRound
  exact fun s hs => ⟨fun h => ⟨mix s.blk, exec_mix_ready hs h rfl, mix_get s.blk⟩, exec_mix_notReady hs⟩

/-- Two register files with the same lanes are equal. -/
theorem block_ext {a b : Block} (h : ∀ j l : Fin 4, a[laneIdx j l] = b[laneIdx j l]) : a = b := by
  refine Vector.ext fun n hn => ?_
  obtain ⟨j, l, hjl⟩ := laneIdx_surj ⟨n, hn⟩
  exact (congrArg (fun i : Fin 16 => a[i] = b[i]) hjl).mpr (h j l)

/-- Settles O35: the snapshots of rule R67, read off for each of the sixteen lanes, are the rows of the table. What is
computed from the operands does not matter here, so it is generalised away. -/
theorem mixOperandTable : Obligations.MixOperandTable := by
  unfold Obligations.MixOperandTable
  intro s hs h x f
  refine exec_mix_ready hs h (block_ext fun j l => ?_)
  rw [mix_get]
  simp only [f]
  generalize laneResult = g
  fin_cases j <;> fin_cases l <;> rfl

/-! The top bit (R94). -/

theorem add_topBit_add_topBit (w : Word) : w + 0x80000000#32 + 0x80000000#32 = w := by
  rw [BitVec.add_assoc]
  exact BitVec.add_zero w

/-- The top bit commutes with the exclusive-or, since adding it is one. -/
theorem add_topBit_xor (w b : Word) : w + 0x80000000#32 ^^^ b = (w ^^^ b) + 0x80000000#32 := by
  rw [add_topBit, add_topBit, BitVec.xor_assoc, BitVec.xor_comm _ b, BitVec.xor_assoc]

theorem laneRound_add_topBit (a b c w : Word) :
    laneRound a b c (w + 0x80000000#32) = laneRound a b c w + 0x80000000#32 := by
  rw [laneRound, laneRound, add_right_comm w, add_topBit_xor, add_right_comm]

theorem laneRound_add_topBit_a (a b c w : Word) :
    laneRound (a + 0x80000000#32) b c w = laneRound a b c w + 0x80000000#32 := by
  rw [laneRound, laneRound, ← add_assoc, add_topBit_xor, add_right_comm]

theorem laneRound_add_topBit_c (a b c w : Word) :
    laneRound a b (c + 0x80000000#32) w = laneRound a b c w + 0x80000000#32 := by
  rw [laneRound, laneRound, add_assoc]

theorem laneResult_add_topBit (a b c w : Word) :
    laneResult a b c (w + 0x80000000#32) = laneResult a b c w + 0x80000000#32 := by
  simp only [laneResult, laneRound_add_topBit]

/-- Each of the four rounds adds the top bit of `a` once, so it cancels. -/
theorem laneResult_add_topBit_a (a b c w : Word) : laneResult (a + 0x80000000#32) b c w = laneResult a b c w := by
  simp only [laneResult, laneRound_add_topBit_a, laneRound_add_topBit, add_topBit_add_topBit]

theorem laneResult_add_topBit_c (a b c w : Word) : laneResult a b (c + 0x80000000#32) w = laneResult a b c w := by
  simp only [laneResult, laneRound_add_topBit_c, laneRound_add_topBit, add_topBit_add_topBit]

/-- Words of different chunks are different words. -/
theorem laneIdx_ne_of_chunk_ne {i j k l : Fin 4} (h : i ≠ j) : laneIdx i k ≠ laneIdx j l :=
  fun he => h (laneIdx_inj.mp he).1

/-- Settles O36: a lane's own word and its three operands come from four chunks, so at most one of them is word `m`; in the lane's
own word the top bit goes through, as `A` or `C` it cancels. -/
theorem topBitReachesOneOtherWord : Obligations.TopBitReachesOneOtherWord := by
  unfold Obligations.TopBitReachesOneOtherWord
  intro x y m hy j l
  have same {n : Fin 16} (hn : n ≠ m) : y[n] = x[n] := (hy n).trans (if_neg hn)
  have moved {n : Fin 16} (hn : n = m) : y[n] = x[n] + 0x80000000#32 := (hy n).trans (if_pos hn)
  have snapshot_same {i k : Fin 4} (hn : laneIdx i (shuffle i)[k] ≠ m) : snapshot y i k = snapshot x i k := same hn
  have snapshot_moved {i k : Fin 4} (hn : laneIdx i (shuffle i)[k] = m) :
      snapshot y i k = snapshot x i k + 0x80000000#32 := moved hn
  rw [mix_get, mix_get]
  refine ⟨fun hown => ?_, fun hown hb => ?_⟩
  · have other {i k : Fin 4} (hi : i ≠ j) : snapshot y i k = snapshot x i k :=
      snapshot_same (hown ▸ laneIdx_ne_of_chunk_ne hi)
    rw [moved hown, other (by simp), other (by simp), other (by simp), laneResult_add_topBit]
  · rw [same hown, snapshot_same hb]
    by_cases ha : laneIdx (j + 1) (shuffle (j + 1))[l] = m
    · have hc : laneIdx (j + 2) (shuffle (j + 2))[l + 2] ≠ m := ha ▸ laneIdx_ne_of_chunk_ne (by simp)
      rw [snapshot_moved ha, snapshot_same hc, laneResult_add_topBit_a]
    · rw [snapshot_same ha]
      by_cases hc : laneIdx (j + 2) (shuffle (j + 2))[l + 2] = m
      · rw [snapshot_moved hc, laneResult_add_topBit_c]
      · rw [snapshot_same hc]

end Sys2Proof.Machine
end

