-- ==== Sys2Proof/Proofs/StepCommands.lean ====
section
/-! PROOFS. The step commands SEED, BSIZE, COPY, CTRINC, FOLD and ADV (R76 to R83), each as an equation of whole states: what it
leaves when it completes, and when its validity condition fails (R110). -/

namespace Sys2Proof.Machine

/-! The two ends of a command. -/

/-- A command whose body goes through leaves what the body leaves, completed; the status `t` itself has does not matter
(R59 step 5). -/
theorem exec_completed {i : Instr} {s t u : State} (hs : s.ready) (h : bodyOf i (startCommand s) = .ok u)
    (ht : completed u = completed t) : exec i s = .next (completed t) := by
  rw [exec_ready hs, h, ← ht]
  rfl

/-- A command whose body only raises a fault leaves the state it was given, faulted (R113, R114). -/
theorem exec_faulted {i : Instr} {s : State} {c : Cause} {n : Nat} (hs : s.ready)
    (h : bodyOf i (startCommand s) = raise (startCommand s) c n) : exec i s = .next (faulted s c (narrow s.cfg n)) := by
  rw [exec_ready hs, h]
  rfl

@[simp] theorem narrow_zero (c : Config) : narrow c 0 = 0 := by rw [narrow, Nat.zero_mod, BitVec.ofNat_eq_ofNat]

/-- `NOTREADY` is raised with the address 0 (R110). -/
theorem exec_notReady {i : Instr} {s : State} (hs : s.ready)
    (h : bodyOf i (startCommand s) = raise (startCommand s) .notReady 0) : exec i s = .next (faulted s .notReady 0) := by
  rw [exec_faulted hs h, narrow_zero]

/-! SEED and APPLY. -/

/-- Settles O30: the words by those of `seedWords`, the rest by `seedBody_ready` and `seedBody_notReady`. -/
theorem seedLoadsBase : Obligations.SeedLoadsBase := by
  unfold Obligations.SeedLoadsBase
  refine ⟨decode_encode .seed, fun s hs => ⟨fun hk => ?_, fun hk => ?_⟩⟩
  · exact ⟨seedWords s.cfg.const s.key s.nonce, exec_completed (i := .seed) hs (seedBody_ready (s := startCommand s) hk) rfl,
      seedWords_const s.cfg.const s.key s.nonce, seedWords_key s.cfg.const s.key s.nonce,
      seedWords_nonce s.cfg.const s.key s.nonce⟩
  · exact exec_notReady hs (seedBody_notReady (s := startCommand s) hk)

/-- Settles O45: the fault of APPLY's SEED ends APPLY (R87). -/
theorem applyNeedsKeyAndNonce : Obligations.ApplyNeedsKeyAndNonce := by
  unfold Obligations.ApplyNeedsKeyAndNonce
  intro s hs hk
  refine exec_notReady hs ?_
  rw [bodyOf, applyBody, seedBody_notReady (s := startCommand s) hk]
  rfl

/-! The steps of an iteration. -/

/-- Settles O31: `blockSize` is the smaller of 64 and REM. -/
theorem bsizeChoosesBlockSize : Obligations.BsizeChoosesBlockSize := by
  unfold Obligations.BsizeChoosesBlockSize
  exact ⟨decode_encode .bsize, fun s hs => ⟨blockSize s.rem.toNat, blockSize_val _, exec_completed (i := .bsize) hs rfl rfl⟩⟩

/-- Settles O32: by whether BASE is seeded. -/
theorem copyTakesBase : Obligations.CopyTakesBase := by
  unfold Obligations.CopyTakesBase
  refine ⟨decode_encode .copy, fun s hs => ⟨fun h => ?_, fun h => ?_⟩⟩
  · exact exec_completed (i := .copy) hs (copyBody_ready (s := startCommand s) h) rfl
  · exact exec_notReady hs (copyBody_notReady (s := startCommand s) h)

theorem counterAdd_getElem_fin (b : Block) (n : Nat) (i : Fin 16) :
    (counterAdd b n)[i] = if i.val < 4 then b[i] + BitVec.ofNat 32 n else b[i] := counterAdd_get b n i i.isLt

/-- Counting as a number: the first four words grow modulo 2^32, with no carry between them (R80). -/
theorem counterAdd_toNat (b : Block) (n : Nat) (i : Fin 16) :
    (counterAdd b n)[i].toNat = if i.val < 4 then (b[i].toNat + n) % 2 ^ 32 else b[i].toNat := by
  rw [counterAdd_getElem_fin]
  split
  · rw [BitVec.toNat_add, BitVec.toNat_ofNat, Nat.add_mod_mod]
  · rfl

/-- Settles O33: the new BASE is `counterAdd` of the old. -/
theorem ctrincAdvancesCounter : Obligations.CtrincAdvancesCounter := by
  unfold Obligations.CtrincAdvancesCounter
  refine ⟨decode_encode .ctrinc, fun s hs => ⟨fun h => ?_, fun h => ?_⟩⟩
  · exact ⟨counterAdd s.base s.bsz.val, exec_completed (i := .ctrinc) hs (ctrincBody_ready (s := startCommand s) h) rfl,
      counterAdd_toNat s.base s.bsz.val⟩
  · exact exec_notReady hs (ctrincBody_notReady (s := startCommand s) h)

/-- Settles O37: the new BLK is the sixteen sums `foldWords`. -/
theorem foldAddsBase : Obligations.FoldAddsBase := by
  unfold Obligations.FoldAddsBase
  refine ⟨decode_encode .fold, fun s hs => ⟨fun h => ?_, fun h => ?_⟩⟩
  · refine ⟨foldWords s.blk s.base, exec_completed (i := .fold) hs (foldBody_ready (s := startCommand s) h) rfl, fun i => ?_⟩
    rw [Fin.getElem_fin, foldWords_get, BitVec.toNat_add]
    rfl
  · exact exec_notReady hs (foldBody_notReady (s := startCommand s) h)

/-- Settles O38: under the sequencer invariant neither `adv_off` nor `adv_rem` wraps. -/
theorem advMovesSequencer : Obligations.AdvMovesSequencer := by
  unfold Obligations.AdvMovesSequencer
  intro s hs ⟨hbsz, hsum, _⟩
  exact ⟨_, _, adv_off ⟨hbsz, hsum⟩, adv_rem ⟨hbsz, hsum⟩, exec_completed (i := .adv) hs rfl rfl⟩

end Sys2Proof.Machine
end

