-- ==== Sys2Proof/Proofs/CommandSequence.lean ====
section
/-! PROOFS. Commands given one after another (R84, R85, R87): the completion of one and the start of the next cancel, so they are
one command whose body is their bodies one after another. -/

namespace Sys2Proof.Machine

/-- The bodies of the commands, one after another, from where the flow is. -/
def bodiesFrom (f : Flow) (is : List Instr) : Flow := is.foldl (fun g i => g.andThen (bodyOf i)) f

theorem bodiesFrom_cons (f : Flow) (i : Instr) (is : List Instr) :
    bodiesFrom f (i :: is) = bodiesFrom (f.andThen (bodyOf i)) is := rfl

/-- A state with the status of a command that has started is ready when completed, and starting it again undoes that. -/
theorem completeCommand_restarts {s t : State} (hs : s.ready) (h : SameStatus (startCommand s) t) :
    (completeCommand t).ready ∧ startCommand (completeCommand t) = t := by
  obtain ⟨hf, hb, hd, -, -, -⟩ := h
  refine ⟨⟨hf.trans hs.1, rfl⟩, ?_⟩
  rw [startCommand_busy] at hb
  rw [startCommand_done] at hd
  simp only [startCommand, completeCommand, ← hb, ← hd]

/-- A command after a command is the second body after the first, framed once (R59, R87). -/
theorem thenCommand_settle {s : State} (hs : s.ready) {f : Flow} (hf : f.Status (startCommand s)) (i : Instr) :
    thenCommand (.next (settle f)) i = .next (settle (f.andThen (bodyOf i))) := by
  cases f with
  | ok t =>
    obtain ⟨hready, hstart⟩ := completeCommand_restarts hs hf
    rw [settle_ok, thenCommand, exec_ready hready, hstart, andThen_ok]
  | raised t => exact exec_gated i (by rw [settle_raised, gated, hf.fault, Bool.true_or])

theorem foldl_thenCommand_settle {s : State} (hs : s.ready) (is : List Instr) {f : Flow} (hf : f.Status (startCommand s)) :
    is.foldl thenCommand (.next (settle f)) = .next (settle (bodiesFrom f is)) := by
  induction is generalizing f with
  | nil => rfl
  | cons i is ih => rw [List.foldl_cons, thenCommand_settle hs hf, bodiesFrom_cons, ih (hf.andThen (bodyOf_status i))]

theorem foldl_thenCommand_gated {s : State} (h : gated s = true) (is : List Instr) :
    is.foldl thenCommand (.next s) = .next s :=
  List.foldlRecOn (motive := fun o => o = Host.Outcome.next s) is _ rfl fun _ ho i _ => by
    rw [ho, thenCommand, exec_gated i h]

/-- One or more commands, one after another, are one command; from every state, faults and all. -/
theorem foldl_thenCommand (i : Instr) (is : List Instr) (s : State) :
    (i :: is).foldl thenCommand (.next s) = .next (command (fun u => bodiesFrom (.ok u) (i :: is)) s) := by
  cases hg : gated s with
  | true => rw [foldl_thenCommand_gated hg, command_gated hg]
  | false =>
    have hs : s.ready := gated_eq_false.mp hg
    rw [List.foldl_cons, thenCommand, exec_ready hs, foldl_thenCommand_settle hs is (bodyOf_status i _), command_ready hs]
    rfl

/-- A command depends on its body only in the state the body is given. -/
theorem command_congr {f g : State → Flow} {s : State} (h : f (startCommand s) = g (startCommand s)) :
    command f s = command g s := by rw [command, command, h]

/-! BLOCK. -/

theorem blockBody_of_rem_eq_zero {s : State} (h : s.rem = 0) : blockBody s = .ok s := if_pos h

theorem blockBody_of_rem_ne_zero {s : State} (h : s.rem ≠ 0) : blockBody s = blockSteps s := if_neg h

/-- Settles O43: `blockSteps` is the seven bodies one after another. -/
theorem blockIsItsSevenSteps : Obligations.BlockIsItsSevenSteps := by
  unfold Obligations.BlockIsItsSevenSteps
  intro s
  rw [exec_eq]
  split
  next h => exact congrArg _ (command_congr (blockBody_of_rem_eq_zero h))
  next h =>
    rw [foldl_thenCommand]
    exact congrArg _ (command_congr (blockBody_of_rem_ne_zero h))

/-! The loop of APPLY. -/

theorem blockLoop_of_rem_eq_zero {s : State} (h : s.rem = 0) : ∀ n, blockLoop n s = .ok s
  | 0 => rfl
  | _ + 1 => if_pos h

/-- The test of the loop may be left out: with nothing remaining BLOCK does nothing either (R84, R85). -/
theorem blockLoop_succ (n : Nat) (s : State) : blockLoop (n + 1) s = (blockBody s).andThen (blockLoop n) := by
  by_cases h : s.rem = 0
  · rw [blockLoop_of_rem_eq_zero h, blockBody_of_rem_eq_zero h, andThen_ok, blockLoop_of_rem_eq_zero h]
  · exact if_neg h

theorem andThen_blockLoop (n : Nat) (f : Flow) : f.andThen (blockLoop n) = bodiesFrom f (List.replicate n .block) := by
  induction n generalizing f with
  | zero => cases f <;> rfl
  | succ n ih =>
    rw [List.replicate_succ, bodiesFrom_cons, ← ih, andThen_assoc]
    exact congrArg f.andThen (funext (blockLoop_succ n))

/-- APPLY's loop runs on what SEED left, whose REM is DLEN. -/
theorem applyBody_eq (s : State) : applyBody s = (seedBody s).andThen (blockLoop ((s.dlen.toNat + 63) / 64)) := by
  rw [applyBody]
  by_cases hk : s.kv = 0xFF ∧ s.nv = 0xF
  · rw [seedBody_ready hk]
    rfl
  · rw [seedBody_notReady hk]
    rfl

/-- Settles O44: the loop of APPLY is that many bodies of BLOCK, by `andThen_blockLoop`. -/
theorem applyIsSeedThenBlocks : Obligations.ApplyIsSeedThenBlocks := by
  unfold Obligations.ApplyIsSeedThenBlocks
  intro s
  rw [exec_eq, foldl_thenCommand, command_congr (f := bodyOf .apply)]
  exact (applyBody_eq _).trans (andThen_blockLoop _ _)

end Sys2Proof.Machine
end

