-- ==== Sys2Proof/Proofs/BlockCommand.lean ====
section
/-! PROOFS. One iteration of the driver (R84, R88): what it leaves when its span is in the space and admitted, what it leaves when
it is not (R87, R111), and the command BLOCK. -/

namespace Sys2Proof.Machine

/-! Spans XORed with bytes. -/

/-- `m'` is `m` with the `n` bytes from `lo` on XORed with the bytes `src 0`, `src 1`, and so on. -/
structure XoredSpan (lo n : Nat) (src : Nat → Byte) (m m' : Memory) : Prop where
  inside : ∀ k, k < n → Memory.read m' (lo + k) = Memory.read m (lo + k) ^^^ src k
  outside : ∀ y, ¬(lo ≤ y ∧ y < lo + n) → Memory.read m' y = Memory.read m y

theorem xoredSpan_of_read {lo n : Nat} {src : Nat → Byte} {m m' : Memory}
    (h : ∀ y, Memory.read m' y =
      if lo ≤ y ∧ y < lo + n then Memory.read m y ^^^ src (y - lo) else Memory.read m y) : XoredSpan lo n src m m' where
  inside k hk := by rw [h, if_pos (by omega), Nat.add_sub_cancel_left]
  outside y hy := by rw [h, if_neg hy]

theorem XoredSpan.refl (lo : Nat) (src : Nat → Byte) (m : Memory) : XoredSpan lo 0 src m m :=
  ⟨fun _ hk => absurd hk (Nat.not_lt_zero _), fun _ _ => rfl⟩

/-- Two adjacent spans, one XORed after the other, with consecutive bytes. -/
theorem XoredSpan.append {lo n n' : Nat} {src src' : Nat → Byte} {m m' m'' : Memory} (h : XoredSpan lo n src m m')
    (h' : XoredSpan (lo + n) n' src' m' m'') (hsrc : ∀ k, k < n' → src' k = src (n + k)) :
    XoredSpan lo (n + n') src m m'' where
  inside k hk := by
    by_cases hkn : k < n
    · rw [h'.outside _ (by omega), h.inside k hkn]
    · obtain ⟨j, rfl⟩ := Nat.exists_eq_add_of_le (Nat.le_of_not_lt hkn)
      have hj : j < n' := by omega
      rw [← Nat.add_assoc, h'.inside j hj, hsrc j hj, h.outside _ (by omega)]
  outside y hy := by rw [h'.outside y (by omega), h.outside y (by omega)]

/-- XORing a span twice with the same bytes restores it (R92). -/
theorem XoredSpan.twice {lo n : Nat} {src : Nat → Byte} {m m' m'' : Memory} (h : XoredSpan lo n src m m')
    (h' : XoredSpan lo n src m' m'') (y : Nat) : Memory.read m'' y = Memory.read m y := by
  by_cases hy : lo ≤ y ∧ y < lo + n
  · obtain ⟨k, rfl⟩ := Nat.exists_eq_add_of_le hy.1
    have hk : k < n := by omega
    rw [h'.inside k hk, h.inside k hk, BitVec.xor_assoc, BitVec.xor_self, BitVec.xor_zero]
  · rw [h'.outside y hy, h.outside y hy]

/-! An XORB that faults. -/

/-- The bytes of a block in the order of rule R42, as XORB applies them (R101). -/
def bytesOf (b : Block) (k : Nat) : Byte := blkByte b (Fin.ofNat 64 k)

theorem bytesOf_fin (b : Block) (k : Fin 64) : bytesOf b k.val = blkByte b k := by rw [bytesOf, Fin.ofNat_val_eq_self]

/-- A run of chunks that faults does so in one chunk, after those before it went through. -/
theorem runChunks_raised {chunk : State → Nat → Nat → Flow} {cs : List (Nat × Nat)} {s u : State}
    (h : runChunks chunk cs s = .raised u) :
    ∃ pre o w post t, cs = pre ++ (o, w) :: post ∧ runChunks chunk pre s = .ok t ∧ chunk t o w = .raised u := by
  induction cs generalizing s with
  | nil => cases h
  | cons ow cs ih =>
    obtain ⟨o, w⟩ := ow
    rw [runChunks] at h
    cases hc : chunk s o w with
    | raised v =>
      rw [hc, andThen_raised] at h
      cases h
      exact ⟨[], o, w, cs, s, rfl, rfl, hc⟩
    | ok v =>
      rw [hc, andThen_ok] at h
      obtain ⟨pre, o', w', post, t, rfl, hpre, hlast⟩ := ih h
      exact ⟨(o, w) :: pre, o', w', post, t, rfl, by rw [runChunks, hc, andThen_ok, hpre], hlast⟩

/-- The chunks of XORB that went through were admitted. -/
theorem runChunks_xorb_admitted {cs : List (Nat × Nat)} {s t : State} (h : runChunks xorbChunk cs s = .ok t) :
    ∀ ow ∈ cs, admitted s.cfg (blockStart s + ow.1) ow.2 .read = true ∧
      admitted s.cfg (blockStart s + ow.1) ow.2 .write = true := by
  refine runChunks_inv (chunk := xorbChunk) (I := DataOnly s) (P := fun o w =>
    admitted s.cfg (blockStart s + o) w .read = true ∧ admitted s.cfg (blockStart s + o) w .write = true)
    (fun u o w v hu hv => ?_) cs s t (.refl s) h
  unfold xorbChunk at hv
  rw [← hu.cfg_eq, ← hu.blockStart_eq]
  obtain ⟨hr, hw, hc⟩ | ⟨-, hc⟩ | ⟨-, -, hc⟩ := chunkXor_cases u (blockStart u + o) w (blkBytes u.blk o w)
  · cases hc.symm.trans hv
    exact ⟨⟨hr, hw⟩, hu.trans (dataOnly_afterChunk ..)⟩
  · cases hc.symm.trans hv
  · cases hc.symm.trans hv

/-- A chunk of XORB that faults raises BUS and leaves the data space as it was (R111). -/
theorem xorbChunk_raised {s u : State} {o w : Nat} (h : xorbChunk s o w = .raised u) :
    u.cause = some .bus ∧ u.mem = s.mem := by
  unfold xorbChunk at h
  obtain ⟨-, -, hc⟩ | ⟨-, hc⟩ | ⟨-, -, hc⟩ := chunkXor_cases s (blockStart s + o) w (blkBytes s.blk o w) <;>
    cases hc.symm.trans h
  · exact ⟨rfl, rfl⟩
  · exact ⟨rfl, rfl⟩

/-- An XORB on a fully valid BLK that faults raises RANGE or BUS and has XORed some of the first bytes of its span, and no other
byte (R99, R111). -/
theorem xorbBody_raised {s u : State} (hv : s.blkv = 0xFFFF) (h : xorbBody s = .raised u) :
    (u.cause = some .range ∨ u.cause = some .bus) ∧
      ∃ n, n ≤ s.bsz.val ∧ XoredSpan (blockStart s) n (bytesOf s.blk) s.mem u.mem := by
  unfold xorbBody at h
  rw [blkReady_iff.mpr hv, Bool.not_true, if_neg Bool.false_ne_true] at h
  split at h
  · cases h
  · split at h
    · cases h
      exact ⟨.inl rfl, 0, Nat.zero_le _, .refl ..⟩
    · obtain ⟨hcontig, hcovered⟩ := sched_spec s.bsz.val s.cfg.vw
      obtain ⟨pre, o, w, post, t, hsched, hpre, hlast⟩ := runChunks_raised h
      rw [hsched] at hcontig hcovered
      obtain ⟨hcause, hmem⟩ := xorbChunk_raised hlast
      obtain ⟨hcontig, -, -⟩ := contiguous_split hcontig
      obtain ⟨t', ht', -, -, hread⟩ := xorb_run hcontig (runChunks_xorb_admitted hpre)
      cases ht'.symm.trans hpre
      rw [covered_append] at hcovered
      exact ⟨.inr hcause, covered pre, by omega, hmem ▸ xoredSpan_of_read hread⟩

/-! One iteration. -/

/-- The current block lies in the address space and the memory admits it (R99, R39). -/
abbrev State.blockReachable (s : State) : Prop :=
  inSpace s.cfg (blockStart s) (min 64 s.rem.toNat) = true ∧ spanAdmitted s.cfg (blockStart s) (min 64 s.rem.toNat) = true

/-- The keystream block an iteration from `s` applies (R88). -/
def nextBlock (s : State) : Block := keystreamWords s.base (min 64 s.rem.toNat)

theorem beforeXorb_nextBlock (s : State) : (beforeXorb s).blk = nextBlock s := beforeXorb_blk s

/-- What XORB does to the data space, said of the state in which the iteration began. -/
theorem xoredSpan_beforeXorb {s : State} {n : Nat} {m : Memory}
    (h : XoredSpan (blockStart (beforeXorb s)) n (bytesOf (beforeXorb s).blk) (beforeXorb s).mem m) :
    XoredSpan (blockStart s) n (bytesOf (nextBlock s)) s.mem m := by
  rwa [beforeXorb_start, beforeXorb_nextBlock, beforeXorb_mem] at h

/-- `t` is what an iteration from `s` leaves when it goes through (R84, R88). -/
structure BlockDone (s t : State) : Prop where
  regs : t = { s with base := counterAdd s.base (min 64 s.rem.toNat), blk := nextBlock s,
                      blkv := 0xFFFF, off := t.off, rem := t.rem, bsz := 0, mem := t.mem, accesses := t.accesses }
  off : t.off.toNat = s.off.toNat + min 64 s.rem.toNat
  rem : t.rem.toNat = s.rem.toNat - min 64 s.rem.toNat
  mem : XoredSpan (blockStart s) (min 64 s.rem.toNat) (bytesOf (nextBlock s)) s.mem t.mem

/-- `u` is what an iteration from `s` leaves when its XORB faults: only the data space, the history and the status differ from the
state in which the XORB began (R87, R111). -/
structure BlockRefused (s u : State) : Prop where
  regs : u = { beforeXorb s with mem := u.mem, accesses := u.accesses, fault := u.fault, cause := u.cause, faddr := u.faddr,
                                 busy := u.busy }
  cause : u.cause = some .range ∨ u.cause = some .bus
  mem : ∃ n, n ≤ min 64 s.rem.toNat ∧ XoredSpan (blockStart s) n (bytesOf (nextBlock s)) s.mem u.mem

namespace BlockRefused

variable {s u : State} (h : BlockRefused s u)

include h

theorem seeded_eq : u.seeded = s.seeded := by rw [h.regs]; exact beforeXorb_seeded s
theorem blkv_eq : u.blkv = 0xFFFF := by rw [h.regs]; exact beforeXorb_blkv s
theorem off_eq : u.off = s.off := by rw [h.regs]; exact beforeXorb_off s
theorem rem_eq : u.rem = s.rem := by rw [h.regs]; exact beforeXorb_rem s
theorem bsz_eq : u.bsz = blockSize s.rem.toNat := by rw [h.regs]; exact beforeXorb_bsz s
theorem base_eq : u.base = counterAdd s.base (min 64 s.rem.toNat) := by rw [h.regs]; exact beforeXorb_base s
theorem blk_eq : u.blk = nextBlock s := by rw [h.regs]; exact beforeXorb_nextBlock s

end BlockRefused

theorem blockBody_ok {s : State} (hinv : s.sequencerInv) (hr : s.rem ≠ 0) (h : s.blockReachable) :
    ∃ t, blockBody s = .ok t ∧ BlockDone s t := by
  obtain ⟨-, hsum, hseeded⟩ := hinv
  obtain ⟨v, hv, hdata, -, hmem⟩ := xorbBody_ok (s := beforeXorb s) (beforeXorb_blkv s) (by simpa using .inr h.1)
    (by simpa using h.2)
  have hadv : v.bsz.val ≤ v.rem.toNat ∧ v.off.toNat + v.rem.toNat < spaceSize v.cfg := by
    rw [hdata]
    simpa using hsum
  refine ⟨_, by rw [blockBody_seeded hr (hseeded hr), hv, andThen_ok, advBody], ?_, ?_, ?_, ?_⟩
  · rw [hdata]
    simp [withSequencer, nextBlock]
  · rw [withSequencer_off, adv_off hadv, hdata]
    simp
  · rw [withSequencer_rem, adv_rem hadv, hdata]
    simp
  · exact xoredSpan_beforeXorb (xoredSpan_of_read (src := bytesOf (beforeXorb s).blk) hmem)

theorem blockBody_raised {s : State} (hr : s.rem ≠ 0) (hs : s.seeded = true) (h : ¬s.blockReachable) :
    ∃ u, blockBody s = .raised u ∧ BlockRefused s u := by
  rw [blockBody_seeded hr hs]
  have hstep := xorbBody_dataStep (beforeXorb s)
  cases hx : xorbBody (beforeXorb s) with
  | ok v =>
    obtain ⟨-, hin, hadm⟩ := xorbBody_inv hx
    have hn : s.rem.toNat ≠ 0 := fun h0 => hr (BitVec.eq_of_toNat_eq h0)
    have hsize : min 64 s.rem.toNat ≠ 0 := by omega
    simp only [beforeXorb_bsz, blockSize_val, beforeXorb_cfg, beforeXorb_start, hsize, false_or] at hin hadm
    exact absurd ⟨hin, hadm⟩ h
  | raised u =>
    rw [hx] at hstep
    obtain ⟨hcause, n, hn, hmem⟩ := xorbBody_raised (beforeXorb_blkv s) hx
    exact ⟨u, rfl, hstep.regs, hcause, n, hn, xoredSpan_beforeXorb hmem⟩

/-- However an iteration ends, BLK is the keystream block of the base state before it (R88). -/
theorem blockBody_blk {s : State} (hr : s.rem ≠ 0) (hs : s.seeded = true) :
    (blockBody s).All fun t => t.blk = nextBlock s := by
  rw [blockBody_seeded hr hs]
  refine Flow.All.andThen ((xorbBody_dataStep (beforeXorb s)).mono fun t ht => ?_) fun _ => id
  rw [ht.regs]
  exact beforeXorb_nextBlock s

/-! The command. -/

theorem keystreamWords_get (b : Block) (n : Nat) (i : Fin 16) :
    (keystreamWords b n)[i] = (mix b)[i] + (counterAdd b n)[i] := foldWords_get (mix b) (counterAdd b n) i i.isLt

/-- Settles O42: the body of BLOCK is one iteration, described by `BlockDone`. -/
theorem blockProcessesOneBlock : Obligations.BlockProcessesOneBlock := by
  unfold Obligations.BlockProcessesOneBlock
  intro s hs hinv hr n d hin hadm
  obtain ⟨t, ht, hdone⟩ := blockBody_ok (s := startCommand s) hinv hr ⟨decide_eq_true hin, hadm⟩
  have hbase : (completed t).base = counterAdd s.base n := by rw [hdone.regs]; rfl
  have hblk : (completed t).blk = keystreamWords s.base n := by rw [hdone.regs]; rfl
  refine ⟨completed t, exec_completed hs ht rfl, ?_, fun i => ?_, fun i => ?_, hdone.off, hdone.rem, fun k hk => ?_,
    hdone.mem.outside⟩
  · rw [hdone.regs]
    rfl
  · rw [hbase, counterAdd_toNat]
  · rw [hblk, hbase, keystreamWords_get]
  · rw [hblk]
    exact (hdone.mem.inside k hk).trans (by rw [bytesOf_fin]; rfl)

/-- BLK after a BLOCK, whether its XORB faults or not (R88). -/
theorem exec_block_blk {s t : State} (hs : s.ready) (hinv : s.sequencerInv) (hr : s.rem ≠ 0) (h : exec .block s = .next t) :
    t.blk = nextBlock s := by
  obtain ⟨-, -, hseeded⟩ := hinv
  rw [exec_ready hs] at h
  cases h
  exact settle_all (blockBody_blk (s := startCommand s) hr (hseeded hr)) fun _ => id

/-- Settles O59: the size enters `keystreamWords` through the counter words only. -/
theorem blockSizeEntersFirstWordsOnly : Obligations.BlockSizeEntersFirstWordsOnly := by
  unfold Obligations.BlockSizeEntersFirstWordsOnly
  intro s1 s2 t1 t2 hs1 hs2 hinv1 hinv2 hr1 hr2 hbase h1 h2 i
  rw [exec_block_blk hs1 hinv1 hr1 h1, exec_block_blk hs2 hinv2 hr2 h2, nextBlock, nextBlock, hbase, keystreamWords_get,
    keystreamWords_get, counterAdd_getElem_fin, counterAdd_getElem_fin]
  refine ⟨fun hi => ?_, fun hi => ?_⟩
  · rw [if_neg (Nat.not_lt.mpr hi), if_neg (Nat.not_lt.mpr hi)]
  · rw [if_pos hi, if_pos hi, ← add_assoc, ← add_assoc, add_right_comm]

end Sys2Proof.Machine
end

