-- ==== Sys2Proof/Proofs/ApplyLoop.lean ====
section
/-! PROOFS. The loop of APPLY (R85 to R88): what it leaves after each of its iterations, and with that what APPLY leaves, whether it
completes or faults. -/

namespace Sys2Proof.Machine

/-! The loop, cut into parts. -/

theorem blockLoop_add (m n : Nat) (s : State) : blockLoop (m + n) s = (blockLoop m s).andThen (blockLoop n) := by
  induction m generalizing s with
  | zero => rw [Nat.zero_add]; rfl
  | succ m ih =>
    rw [Nat.add_right_comm, blockLoop_succ, blockLoop_succ, andThen_assoc]
    exact congrArg (blockBody s).andThen (funext ih)

/-- What SEED makes of the state (R76, R77). -/
def afterSeed (s : State) : State :=
  withSequencer (withSeeded (withBase s (seedWords s.cfg.const s.key s.nonce))) 0 s.dlen 0

theorem applyBody_keyed {s : State} (hk : s.kv = 0xFF ∧ s.nv = 0xF) :
    applyBody s = blockLoop (blockCount s.dlen.toNat) (afterSeed s) := by
  rw [applyBody_eq, seedBody_ready hk]
  rfl

/-- Settles O46: the loop of APPLY makes no iteration. -/
theorem applyOfNothingIsSeed : Obligations.ApplyOfNothingIsSeed := by
  unfold Obligations.ApplyOfNothingIsSeed
  intro s hs hk hdlen
  have hsame : exec .seed s = exec .apply s := by
    rw [exec_eq, exec_eq, command_congr (f := bodyOf .seed) (g := bodyOf .apply)]
    rw [bodyOf, bodyOf, applyBody_keyed (s := startCommand s) hk, startCommand_dlen, hdlen]
    exact seedBody_ready hk
  obtain ⟨-, hseed⟩ := seedLoadsBase
  obtain ⟨b, hb, -⟩ := (hseed s hs).1 hk
  exact ⟨b, by rw [← hsame, hb, hdlen], hsame⟩

/-! The state after some iterations. -/

/-- The bytes in the first `b` blocks of a buffer of `n` bytes. -/
def bytesBefore (n b : Nat) : Nat := min (64 * b) n

theorem bytesBefore_of_lt {n b : Nat} (h : 64 * b < n) : bytesBefore n b = 64 * b := Nat.min_eq_left h.le

theorem bytesBefore_succ (n b : Nat) : bytesBefore n (b + 1) = bytesBefore n b + sizeOfBlock n b := by
  rw [bytesBefore, bytesBefore, sizeOfBlock]
  omega

theorem bytesBefore_blockCount (n : Nat) : bytesBefore n (blockCount n) = n := by
  rw [bytesBefore, blockCount]
  omega

/-- The keystream block of block `b` of an APPLY from `s` (R88). -/
def applyBlock (s : State) (b : Nat) : Block := keystreamBlock s.cfg.const s.key s.nonce s.dlen.toNat b

/-- The byte an APPLY from `s` applies at offset `k` (R88). -/
def applyByte (s : State) (k : Nat) : Byte := keystreamByte s.cfg.const s.key s.nonce s.dlen.toNat k

/-- `t` is what the SEED and the first `b` iterations of an APPLY from `s` leave (R85, R86). -/
structure AfterBlocks (s : State) (b : Nat) (t : State) : Prop where
  regs : t = { s with base := counterAdd (seedWords s.cfg.const s.key s.nonce) (bytesBefore s.dlen.toNat b), blk := t.blk,
                      blkv := t.blkv, seeded := true, off := t.off, rem := t.rem, bsz := 0, mem := t.mem,
                      accesses := t.accesses }
  off : t.off.toNat = bytesBefore s.dlen.toNat b
  rem : t.rem.toNat = s.dlen.toNat - bytesBefore s.dlen.toNat b
  blk : t.blk = if b = 0 then s.blk else applyBlock s (b - 1)
  blkv : t.blkv = if b = 0 then s.blkv else 0xFFFF
  mem : XoredSpan s.daddr.toNat (bytesBefore s.dlen.toNat b) (applyByte s) s.mem t.mem

theorem afterBlocks_zero (s : State) : AfterBlocks s 0 (afterSeed s) := by
  have h0 : bytesBefore s.dlen.toNat 0 = 0 := Nat.zero_min _
  constructor
  case regs =>
    rw [h0, counterAdd_zero]
    rfl
  case off =>
    rw [h0]
    rfl
  case rem =>
    rw [h0]
    rfl
  case blk => rfl
  case blkv => rfl
  case mem =>
    rw [h0]
    exact .refl ..

/-- Block `b` of an APPLY from `s` lies in the address space and the memory admits it (R39, R85, R99). -/
abbrev BlockFits (s : State) (b : Nat) : Prop :=
  inSpace s.cfg (s.daddr.toNat + 64 * b) (sizeOfBlock s.dlen.toNat b) = true ∧
    spanAdmitted s.cfg (s.daddr.toNat + 64 * b) (sizeOfBlock s.dlen.toNat b) = true

namespace AfterBlocks

variable {s t : State} {b : Nat} (h : AfterBlocks s b t)

include h

theorem base_eq : t.base = counterAdd (seedWords s.cfg.const s.key s.nonce) (bytesBefore s.dlen.toNat b) := by rw [h.regs]

theorem seeded_eq : t.seeded = true := by rw [h.regs]

theorem fault_eq : t.fault = s.fault := by rw [h.regs]

theorem cfg_eq : t.cfg = s.cfg := by rw [h.regs]

theorem daddr_eq : t.daddr = s.daddr := by rw [h.regs]

theorem sequencerInv (hn : s.dlen.toNat < spaceSize s.cfg) : t.sequencerInv := by
  have hle : bytesBefore s.dlen.toNat b ≤ s.dlen.toNat := Nat.min_le_right ..
  have hbsz : t.bsz = 0 := by rw [h.regs]
  refine ⟨?_, ?_, fun _ => h.seeded_eq⟩
  · rw [hbsz]
    exact Nat.zero_le _
  · rw [h.off, h.rem, h.cfg_eq]
    omega

/-! The block that comes next, if one does. -/

variable (hb : 64 * b < s.dlen.toNat)

include hb

theorem rem_ne_zero : t.rem ≠ 0 := by
  intro h0
  have hrem := h.rem
  rw [h0, bytesBefore_of_lt hb] at hrem
  have h0' : (0 : Addr).toNat = 0 := rfl
  omega

theorem nextSize_eq : min 64 t.rem.toNat = sizeOfBlock s.dlen.toNat b := by rw [h.rem, bytesBefore_of_lt hb, sizeOfBlock]

theorem blockStart_eq : blockStart t = s.daddr.toNat + 64 * b := by rw [blockStart, h.off, h.daddr_eq, bytesBefore_of_lt hb]

theorem nextBlock_eq : nextBlock t = applyBlock s b := by
  rw [nextBlock, h.nextSize_eq hb, h.base_eq, bytesBefore_of_lt hb]
  rfl

theorem blockReachable_iff : t.blockReachable ↔ BlockFits s b := by
  rw [State.blockReachable, h.nextSize_eq hb, h.blockStart_eq hb, h.cfg_eq]

/-- Byte `k` of the next block is byte `64 b + k` of the keystream. -/
theorem nextByte_eq {k : Nat} (hk : k < 64) : bytesOf (nextBlock t) k = applyByte s (64 * b + k) := by
  have hdiv : (64 * b + k) / 64 = b := by omega
  have hmod : (64 * b + k) % 64 = k := by omega
  rw [h.nextBlock_eq hb, applyByte, keystreamByte, hdiv, hmod]
  rfl

/-- The bytes an iteration from here has XORed, wholly or in part, after those before it. -/
theorem mem_append {n : Nat} {m : Memory} (hn : n ≤ min 64 t.rem.toNat)
    (hm : XoredSpan (blockStart t) n (bytesOf (nextBlock t)) t.mem m) :
    XoredSpan s.daddr.toNat (bytesBefore s.dlen.toNat b + n) (applyByte s) s.mem m := by
  refine h.mem.append (by rwa [h.blockStart_eq hb, ← bytesBefore_of_lt hb] at hm) fun k hk => ?_
  rw [h.nextByte_eq hb (by omega), bytesBefore_of_lt hb]

/-- One more iteration (R84). -/
theorem succ {u : State} (hu : BlockDone t u) : AfterBlocks s (b + 1) u := by
  have hoff := hu.off
  have hrem := hu.rem
  have hmem := h.mem_append hb le_rfl hu.mem
  rw [h.nextSize_eq hb] at hoff hrem hmem
  have hle : bytesBefore s.dlen.toNat b + sizeOfBlock s.dlen.toNat b ≤ s.dlen.toNat := by
    rw [← bytesBefore_succ]
    exact Nat.min_le_right ..
  constructor
  case regs => rw [hu.regs, h.base_eq, counterAdd_add, h.nextSize_eq hb, ← bytesBefore_succ, h.regs]
  case off => rw [hoff, h.off, bytesBefore_succ]
  case rem =>
    rw [hrem, h.rem, bytesBefore_succ]
    omega
  case blk =>
    rw [hu.regs, h.nextBlock_eq hb]
    rfl
  case blkv =>
    rw [hu.regs]
    rfl
  case mem => rwa [bytesBefore_succ]

end AfterBlocks

/-- The iterations over blocks that fit go through (R85). -/
theorem blockLoop_ok {s : State} (hn : s.dlen.toNat < spaceSize s.cfg) {b : Nat} (hb : b ≤ blockCount s.dlen.toNat)
    (h : ∀ c, c < b → BlockFits s c) : ∃ t, blockLoop b (afterSeed s) = .ok t ∧ AfterBlocks s b t := by
  induction b with
  | zero => exact ⟨_, rfl, afterBlocks_zero s⟩
  | succ b ih =>
    obtain ⟨t, ht, hafter⟩ := ih (by omega) fun c hc => h c (by omega)
    have hlt : 64 * b < s.dlen.toNat := by rw [blockCount] at hb; omega
    obtain ⟨u, hu, hdone⟩ := blockBody_ok (hafter.sequencerInv hn) (hafter.rem_ne_zero hlt)
      ((hafter.blockReachable_iff hlt).mpr (h b (by omega)))
    refine ⟨u, ?_, hafter.succ hlt hdone⟩
    rw [blockLoop_add, ht, andThen_ok, blockLoop_succ, hu]
    rfl

/-- The iteration over a block that does not fit faults (R87). -/
theorem blockLoop_raised {s : State} (hn : s.dlen.toNat < spaceSize s.cfg) {b : Nat} (hb : 64 * b < s.dlen.toNat)
    (h : ∀ c, c < b → BlockFits s c) (hbad : ¬BlockFits s b) :
    ∃ t u, AfterBlocks s b t ∧ BlockRefused t u ∧ ∀ m, b < m → blockLoop m (afterSeed s) = .raised u := by
  obtain ⟨t, ht, hafter⟩ := blockLoop_ok hn (b := b) (by rw [blockCount]; omega) h
  obtain ⟨u, hu, href⟩ := blockBody_raised (hafter.rem_ne_zero hb) hafter.seeded_eq
    (mt (hafter.blockReachable_iff hb).mp hbad)
  refine ⟨t, u, hafter, href, fun m hm => ?_⟩
  obtain ⟨r, rfl⟩ := Nat.exists_eq_add_of_lt hm
  rw [Nat.add_assoc, blockLoop_add, ht, andThen_ok, blockLoop_succ, hu, andThen_raised]

/-- If the loop goes through, every block fits. -/
theorem blockFits_of_blockLoop_ok {s t : State} (hn : s.dlen.toNat < spaceSize s.cfg)
    (h : blockLoop (blockCount s.dlen.toNat) (afterSeed s) = .ok t) (b : Nat) (hb : b < blockCount s.dlen.toNat) :
    BlockFits s b := by
  induction b using Nat.strong_induction_on with
  | h b ih =>
    by_contra hbad
    have hlt : 64 * b < s.dlen.toNat := by rw [blockCount] at hb; omega
    obtain ⟨-, u, -, -, hu⟩ := blockLoop_raised hn hlt (fun c hc => ih c hc (by omega)) hbad
    cases h.symm.trans (hu _ hb)

/-! The command. -/

/-- What an APPLY whose blocks all fit leaves (R85, R86). -/
theorem exec_apply_ok {s : State} (hs : s.ready) (hk : s.kv = 0xFF ∧ s.nv = 0xF) (hn : s.dlen.toNat < spaceSize s.cfg)
    (h : ∀ b, b < blockCount s.dlen.toNat → BlockFits s b) :
    ∃ t, exec .apply s = .next (completed t) ∧ AfterBlocks (startCommand s) (blockCount s.dlen.toNat) t := by
  obtain ⟨t, ht, hafter⟩ := blockLoop_ok (s := startCommand s) hn le_rfl h
  exact ⟨t, exec_completed hs ((applyBody_keyed (s := startCommand s) hk).trans ht) rfl, hafter⟩

/-- An APPLY that completes had a whole key and nonce, and all its blocks fit. -/
theorem apply_conditions {s t : State} (hs : s.ready) (hn : s.dlen.toNat < spaceSize s.cfg)
    (h : exec .apply s = .next t) (ht : t.final) :
    (s.kv = 0xFF ∧ s.nv = 0xF) ∧ ∀ b, b < blockCount s.dlen.toNat → BlockFits s b := by
  have hk : s.kv = 0xFF ∧ s.nv = 0xF := by
    by_contra hk
    cases h.symm.trans (applyNeedsKeyAndNonce s hs hk)
    cases ht
  obtain ⟨u, hu, -⟩ := bodyOf_ok_of_exec hs ht h
  rw [bodyOf, applyBody_keyed (s := startCommand s) hk] at hu
  exact ⟨hk, blockFits_of_blockLoop_ok (s := startCommand s) hn hu⟩

/-! The base state after some blocks (R86). -/

theorem counterAdd_seedWords_const (x : Vector Word 4) (k : Key) (m : Nonce) (n : Nat) (i : Fin 4) :
    (counterAdd (seedWords x k m) n)[i.val]'(by omega) = x[i] + BitVec.ofNat 32 n := by
  rw [counterAdd_get, if_pos i.isLt, seedWords_const]

theorem counterAdd_seedWords_key (x : Vector Word 4) (k : Key) (m : Nonce) (n : Nat) (i : Fin 8) :
    (counterAdd (seedWords x k m) n)[4 + i.val]'(by omega) = k[i] := by
  rw [counterAdd_get, if_neg (by omega), seedWords_key]

theorem counterAdd_seedWords_nonce (x : Vector Word 4) (k : Key) (m : Nonce) (n : Nat) (i : Fin 4) :
    (counterAdd (seedWords x k m) n)[12 + i.val]'(by omega) = m[i] := by
  rw [counterAdd_get, if_neg (by omega), seedWords_nonce]

theorem blockCount_eq_zero {n : Nat} : blockCount n = 0 ↔ n = 0 := by
  rw [blockCount]
  omega

/-- Settles O47: the state after `blockCount` iterations, field by field. -/
theorem applyXorsKeystream : Obligations.ApplyXorsKeystream := by
  unfold Obligations.ApplyXorsKeystream
  intro s hs hk hn hadm n
  obtain ⟨t, ht, hafter⟩ := exec_apply_ok hs hk hn hadm
  have hdone : bytesBefore (startCommand s).dlen.toNat (blockCount s.dlen.toNat) = n := bytesBefore_blockCount n
  obtain ⟨hregs, hoff, hrem, hblk, hblkv, hmem⟩ := hafter
  rw [hdone] at hregs hoff hrem hmem
  have hoff' : t.off = s.dlen := BitVec.eq_of_toNat_eq hoff
  have hrem' : t.rem = 0 := BitVec.eq_of_toNat_eq (hrem.trans (Nat.sub_self n))
  have hbase : (completed t).base = counterAdd (seedWords s.cfg.const s.key s.nonce) n := by rw [hregs]; rfl
  have hlast : blockCount n - 1 = (n - 1) / 64 := by rw [blockCount]; omega
  simp only [blockCount_eq_zero] at hblk hblkv
  refine ⟨completed t, ht, ?_, fun i => ?_, fun i => ?_, fun i => ?_, ?_, hmem.inside, hmem.outside⟩
  · rw [hregs, hoff', hrem', hblkv]
    rfl
  · simp only [hbase, counterAdd_seedWords_const]
  · simp only [hbase, counterAdd_seedWords_key]
  · simp only [hbase, counterAdd_seedWords_nonce]
  · rw [← hlast]
    exact hblk

/-- Settles O55: the blocks before `b` are `AfterBlocks`, block `b` is `BlockRefused`. -/
theorem applyFaultKeepsEarlierBlocks : Obligations.ApplyFaultKeepsEarlierBlocks := by
  unfold Obligations.ApplyFaultKeepsEarlierBlocks
  intro s b hs hk hn n m hb hadm hbad
  obtain ⟨t, u, hafter, href, hraised⟩ := blockLoop_raised (s := startCommand s) hn hb hadm hbad
  have hbody : bodyOf .apply (startCommand s) = .raised u :=
    (applyBody_keyed (s := startCommand s) hk).trans (hraised _ (by rw [startCommand_dlen, blockCount]; omega))
  have hstatus : (Flow.raised u).Status (startCommand s) := hbody ▸ bodyOf_status .apply (startCommand s)
  have hbefore : bytesBefore n b = 64 * b := bytesBefore_of_lt hb
  have hsize : min 64 t.rem.toNat = m := hafter.nextSize_eq hb
  have hbase : u.base = counterAdd (seedWords s.cfg.const s.key s.nonce) (64 * b + m) := by
    rw [href.base_eq, hafter.base_eq, counterAdd_add, hsize, startCommand_dlen, hbefore]
    rfl
  have hrem : t.rem.toNat = n - bytesBefore n b := hafter.rem
  obtain ⟨j, hj, hmem⟩ := href.mem
  have hxored := hafter.mem_append hb hj hmem
  rw [startCommand_dlen, hbefore] at hxored
  refine ⟨u, by rw [exec_ready hs, hbody, settle_raised], hstatus.fault, hstatus.done, href.cause,
    href.seeded_eq.trans hafter.seeded_eq, href.blkv_eq, ?_, ?_, ?_, fun i => ?_, fun i => ?_, fun i => ?_, ?_,
    fun k hk => ?_, fun k hlo hhi => ?_⟩
  · rw [href.off_eq, hafter.off]
    exact hbefore
  · rw [href.rem_eq, hrem, hbefore]
  · rw [href.bsz_eq, blockSize_val, hsize]
  · simp only [hbase, counterAdd_seedWords_const]
  · simp only [hbase, counterAdd_seedWords_key]
  · simp only [hbase, counterAdd_seedWords_nonce]
  · exact href.blk_eq.trans (hafter.nextBlock_eq hb)
  · exact hxored.inside k (by omega)
  · by_cases hkj : k < 64 * b + j
    · exact .inr (hxored.inside k hkj)
    · exact .inl (hxored.outside _ (by rw [startCommand_daddr]; omega))

end Sys2Proof.Machine
end

