-- ==== Sys2Proof/Proofs/KeystreamUse.lean ====
section
/-! PROOFS. The keystream over several invocations (R81, R91, R92): a second APPLY undoes the first, equal full blocks have equal
keystream, and the keystream repeats when the counter wraps. -/

namespace Sys2Proof.Machine

/-! What a completed APPLY did to the buffer. -/

theorem apply_xored {s t : State} (hs : s.ready) (hn : s.dlen.toNat < spaceSize s.cfg) (h : exec .apply s = .next t)
    (ht : t.final) : XoredSpan s.daddr.toNat s.dlen.toNat (applyByte s) s.mem t.mem := by
  obtain ⟨hk, hfits⟩ := apply_conditions hs hn h ht
  obtain ⟨u, hu, hafter⟩ := exec_apply_ok hs hk hn hfits
  cases h.symm.trans hu
  have hmem := hafter.mem
  rwa [startCommand_dlen, bytesBefore_blockCount] at hmem

theorem apply_final {s t : State} (hs : s.ready) (hk : s.kv = 0xFF ∧ s.nv = 0xF) (hn : s.dlen.toNat < spaceSize s.cfg)
    (hfits : ∀ b, b < blockCount s.dlen.toNat → BlockFits s b) (h : exec .apply s = .next t) : t.final := by
  obtain ⟨u, hu, hafter⟩ := exec_apply_ok hs hk hn hfits
  cases h.symm.trans hu
  exact hafter.fault_eq.trans hs.1

/-- No command leaves a ready engine busy. -/
theorem exec_busy {i : Instr} {s t : State} (hs : s.ready) (h : exec i s = .next t) : t.busy = false := by
  rw [exec_eq] at h
  cases h
  obtain hc | hf := command_outcome (bodyOf_status i) hs
  · exact hc.busy
  · exact hf.busy

/-- Settles O56: the first APPLY keeps what the second depends on (`exec_hostSide`), so it applies the same bytes again. -/
theorem applyTwiceRestoresBuffer : Obligations.ApplyTwiceRestoresBuffer := by
  unfold Obligations.ApplyTwiceRestoresBuffer
  intro s t u hs hn h ht h'
  have hready : t.ready := ⟨ht, exec_busy hs h⟩
  obtain ⟨hkey, hnonce, hdaddr, -, hdlen, hkv, hnv, hcfg, -, -⟩ := exec_hostSide h
  obtain ⟨hk, hfits⟩ := apply_conditions hs hn h ht
  have hn' : t.dlen.toNat < spaceSize t.cfg := by rwa [hdlen, hcfg]
  have hu : u.final := by
    refine apply_final hready (by rwa [hkv, hnv]) hn' (fun b hb => ?_) h'
    rw [hdlen] at hb
    rw [BlockFits, hdaddr, hdlen, hcfg]
    exact hfits b hb
  have hxored := apply_xored hready hn' h' hu
  have hbytes : applyByte t = applyByte s := funext fun k => by simp only [applyByte, hcfg, hkey, hnonce, hdlen]
  rw [hdaddr, hdlen, hbytes] at hxored
  exact ⟨hu, (apply_xored hs hn h ht).twice hxored⟩

/-! When keystream bytes are equal. -/

/-- A byte that was applied, from the buffer before and after. -/
theorem XoredSpan.applied {lo n : Nat} {src : Nat → Byte} {m m' : Memory} (h : XoredSpan lo n src m m') {k : Nat}
    (hk : k < n) : Memory.read m' (lo + k) ^^^ Memory.read m (lo + k) = src k := by
  rw [h.inside k hk, BitVec.xor_comm, ← BitVec.xor_assoc, BitVec.xor_self, BitVec.zero_xor]

/-- The counter counts modulo 2^32 (R80, R81). -/
theorem counterAdd_congr (b : Block) {m n : Nat} (h : m % 2 ^ 32 = n % 2 ^ 32) : counterAdd b m = counterAdd b n := by
  have hword : BitVec.ofNat 32 m = BitVec.ofNat 32 n := BitVec.eq_of_toNat_eq (by simpa only [BitVec.toNat_ofNat] using h)
  simp only [counterAdd, hword]

theorem sizeOfBlock_full {n b : Nat} (h : 64 * (b + 1) ≤ n) : sizeOfBlock n b = 64 := by
  rw [sizeOfBlock]
  omega

/-- Two offsets at the same place in full blocks with the same counter have the same keystream byte, whatever the lengths of the
two invocations (R89, R91). -/
theorem keystreamByte_congr (x : Vector Word 4) (k : Key) (m : Nonce) {n n' p p' : Nat} (hfull : 64 * (p / 64 + 1) ≤ n)
    (hfull' : 64 * (p' / 64 + 1) ≤ n') (h : p % 2 ^ 32 = p' % 2 ^ 32) :
    keystreamByte x k m n p = keystreamByte x k m n' p' := by
  have hoffset : p % 64 = p' % 64 := by omega
  have hcounter : 64 * (p / 64) % 2 ^ 32 = 64 * (p' / 64) % 2 ^ 32 := by omega
  rw [keystreamByte, keystreamByte, keystreamBlock, keystreamBlock, sizeOfBlock_full hfull, sizeOfBlock_full hfull', hoffset,
    counterAdd_congr _ hcounter]

/-- Settles O57: the bytes applied are keystream bytes, of full blocks with the same counter. -/
theorem fullBlocksShareKeystream : Obligations.FullBlocksShareKeystream := by
  unfold Obligations.FullBlocksShareKeystream
  intro s1 s2 t1 t2 hconst hkey hnonce hs1 hs2 hn1 hn2 h1 h2 ht1 ht2 k hfull1 hfull2
  rw [(apply_xored hs1 hn1 h1 ht1).applied (by omega), (apply_xored hs2 hn2 h2 ht2).applied (by omega), applyByte, applyByte,
    hconst, hkey, hnonce]
  exact keystreamByte_congr _ _ _ hfull1 hfull2 rfl

/-- Settles O58: offsets 2^32 apart have the same counter. -/
theorem keystreamRepeatsAfterWrap : Obligations.KeystreamRepeatsAfterWrap := by
  unfold Obligations.KeystreamRepeatsAfterWrap
  intro s hs hk hn hadm
  obtain ⟨t, ht, -⟩ := exec_apply_ok hs hk hn hadm
  have hfinal := apply_final hs hk hn hadm ht
  have hxored := apply_xored hs hn ht hfinal
  refine ⟨completed t, ht, hfinal, fun k hfull => ?_⟩
  rw [hxored.applied (by omega), hxored.applied (by omega)]
  exact keystreamByte_congr _ _ _ hfull (by omega) (Nat.add_mod_right k _)

end Sys2Proof.Machine
end

