-- ==== Sys2Proof/Proofs/ChunkSchedule.lean ====
section
/-! PROOFS. The chunk schedule in the terms of rule R97: offsets are sums of widths, widths fall, and the tail has one chunk for each
set bit of the remainder. -/

namespace Sys2Proof.Machine

/-! Offsets. -/

theorem covered_eq_sum (cs : List (Nat × Nat)) : covered cs = (cs.map Prod.snd).sum := by
  induction cs with
  | nil => rfl
  | cons ow cs ih => rw [covered, ih, List.map_cons, List.sum_cons]

/-- In a contiguous list a chunk begins where those before it end. -/
theorem Contiguous.getElem_fst {o : Nat} {cs : List (Nat × Nat)} (h : Contiguous o cs) (k : Nat) (hk : k < cs.length) :
    cs[k].1 = o + ((cs.take k).map Prod.snd).sum := by
  have hsplit : cs = cs.take k ++ (cs[k].1, cs[k].2) :: cs.drop (k + 1) := by
    rw [Prod.mk.eta, List.getElem_cons_drop, List.take_append_drop]
  rw [hsplit] at h
  rw [(contiguous_split h).2.1, covered_eq_sum]

/-! Widths. -/

theorem schedWide_map_snd (v n off : Nat) : (schedWide v n off).map Prod.snd = List.replicate n v := by
  induction n generalizing off with
  | zero => rfl
  | succ n ih => rw [schedWide, List.map_cons, ih, List.replicate_succ]

/-- The tail takes each narrower width at most once, in their order. -/
theorem schedTail_map_snd_sublist (size : Nat) (ws : List Nat) (off : Nat) :
    ((schedTail size ws off).map Prod.snd).Sublist ws := by
  induction ws generalizing off with
  | nil => exact .slnil
  | cons w ws ih =>
    rw [schedTail]
    split
    · exact (ih _).cons_cons w
    · exact (ih _).cons w

theorem narrower_pairwise (vw : VecWidth) : (narrower vw).Pairwise fun v w => w ≤ v := by cases vw <;> decide

theorem mem_widths_and_le_vwBytes_of_mem_narrower (vw : VecWidth) :
    ∀ w ∈ narrower vw, w ∈ [64, 32, 16, 8, 4, 2, 1] ∧ w ≤ vwBytes vw := by
  cases vw <;> decide

theorem vwBytes_mem_widths (vw : VecWidth) : vwBytes vw ∈ [64, 32, 16, 8, 4, 2, 1] := by cases vw <;> decide

/-- The widest width comes first, then narrower ones, each narrower than the one before. -/
theorem sched_widths_pairwise (size : Nat) (vw : VecWidth) :
    ((sched size vw).map Prod.snd).Pairwise fun v w => w ≤ v := by
  have htail := schedTail_map_snd_sublist size (narrower vw) (vwBytes vw * (size / vwBytes vw))
  rw [sched, List.map_append, schedWide_map_snd, List.pairwise_append]
  refine ⟨List.pairwise_replicate.mpr (.inr le_rfl), (narrower_pairwise vw).sublist htail, fun v hv w hw => ?_⟩
  rw [List.eq_of_mem_replicate hv]
  exact (mem_widths_and_le_vwBytes_of_mem_narrower vw w (htail.subset hw)).2

/-! The number of chunks. -/

/-- The number of set bits of `r` below bit `n`. -/
def bitsSetBelow (n r : Nat) : Nat := ((List.range n).filter fun j => r.testBit j).length

theorem bitsSetBelow_succ (n r : Nat) : bitsSetBelow (n + 1) r = bitsSetBelow n r + (r.testBit n).toNat := by
  rw [bitsSetBelow, List.range_succ, List.filter_append, List.length_append, ← bitsSetBelow]
  cases h : r.testBit n <;> simp [h]

theorem bitsSetBelow_congr {n r r' : Nat} (h : ∀ j, j < n → r.testBit j = r'.testBit j) :
    bitsSetBelow n r = bitsSetBelow n r' := by
  rw [bitsSetBelow, bitsSetBelow, List.filter_congr fun j hj => h j (List.mem_range.mp hj)]

/-- A number below `2^j` has no set bit from `j` on. -/
theorem bitsSetBelow_of_lt {j n r : Nat} (h : r < 2 ^ j) (hn : j ≤ n) : bitsSetBelow n r = bitsSetBelow j r := by
  induction n, hn using Nat.le_induction with
  | base => rfl
  | succ n hn ih =>
    have hbit : r.testBit n = false := Nat.testBit_lt_two_pow (h.trans_le (Nat.pow_le_pow_right (by decide) hn))
    rw [bitsSetBelow_succ, ih, hbit]
    rfl

/-- The tail has one chunk for each set bit of what remains (R97). -/
theorem schedTail_length (size j off : Nat) (h : size - off < 2 ^ j) :
    (schedTail size (widthsBelow j) off).length = bitsSetBelow j (size - off) := by
  induction j generalizing off with
  | zero => rfl
  | succ j ih =>
    rw [widthsBelow, schedTail, bitsSetBelow_succ]
    have hpow : 2 ^ (j + 1) = 2 ^ j + 2 ^ j := by rw [pow_succ, Nat.mul_two]
    split
    next hset =>
      obtain ⟨r, hr⟩ := Nat.exists_eq_add_of_le ((and_two_pow_ne_zero h).mp hset)
      have hrest : size - (off + 2 ^ j) = r := by omega
      have hbit : (2 ^ j + r).testBit j = true := by
        rw [Nat.testBit_two_pow_add_eq, Nat.testBit_lt_two_pow (by omega), Bool.not_false]
      rw [List.length_cons, ih _ (by omega), hrest, hr, hbit,
        bitsSetBelow_congr fun i hi => Nat.testBit_two_pow_add_gt hi r]
      rfl
    next hclear =>
      have hlt : size - off < 2 ^ j := Nat.lt_of_not_le (mt (and_two_pow_ne_zero h).mpr hclear)
      rw [ih _ hlt, Nat.testBit_lt_two_pow hlt]
      rfl

theorem sched_length (size : Nat) (vw : VecWidth) :
    (sched size vw).length = size / vwBytes vw + bitsSetBelow 6 (size % vwBytes vw) := by
  obtain ⟨j, hnarrower, hv⟩ := narrower_eq vw
  have hwide := congrArg List.length (schedWide_map_snd (vwBytes vw) (size / vwBytes vw) 0)
  rw [List.length_map, List.length_replicate] at hwide
  have hrest : size % vwBytes vw < 2 ^ j := hv ▸ Nat.mod_lt size (vwBytes_pos vw)
  have hj : j ≤ 6 := by
    rw [← Nat.pow_le_pow_iff_right (a := 2) (by decide), ← hv]
    cases vw <;> decide
  rw [sched, List.length_append, hwide, hnarrower, schedTail_length _ _ _ (Nat.mod_eq_sub .. ▸ hrest), ← Nat.mod_eq_sub,
    bitsSetBelow_of_lt hrest hj]

/-- Settles O48: the chunks are contiguous and cover the size (`sched_spec`), their widths are a run of the widest and then some of
the narrower ones, one for each set bit. -/
theorem scheduleCoversSpan : Obligations.ScheduleCoversSpan := by
  unfold Obligations.ScheduleCoversSpan
  intro size vw
  obtain ⟨hcontig, hcovered⟩ := sched_spec size vw
  refine ⟨fun k hk => ?_, ?_, fun ow how => ?_, sched_widths_pairwise size vw, sched_length size vw⟩
  · rw [hcontig.getElem_fst k hk, Nat.zero_add]
  · rw [← covered_eq_sum, hcovered]
  · obtain hwide | hnarrow := sched_widths size vw ow how
    · exact ⟨hwide ▸ vwBytes_mem_widths vw, hwide.le⟩
    · exact mem_widths_and_le_vwBytes_of_mem_narrower vw ow.2 hnarrow

end Sys2Proof.Machine
end

