-- ==== Sys2Proof/Proofs/XorCommands.lean ====
section
/-! PROOFS. The commands XORB and XORM (R99 to R102): the spans they XOR when their conditions hold, and the faults they raise before
any access when they do not. -/

namespace Sys2Proof.Machine

/-- A command whose body changes only the data space and the history completes with just that change. -/
theorem exec_dataOnly {i : Instr} {s u : State} (hs : s.ready) (h : bodyOf i (startCommand s) = .ok u)
    (hu : DataOnly (startCommand s) u) :
    exec i s = .next (completed { s with mem := u.mem, accesses := u.accesses }) :=
  exec_completed hs h (by rw [hu]; rfl)

theorem spanAdmitted_of_eq_zero {n : Nat} (c : Config) (start : Nat) (h : n = 0) : spanAdmitted c start n = true := by
  rw [h, spanAdmitted, sched_zero]
  rfl

theorem sourceAdmitted_of_eq_zero {n : Nat} (c : Config) (start : Nat) (h : n = 0) : sourceAdmitted c start n = true := by
  rw [h, sourceAdmitted, sched_zero]
  rfl

/-! XORB. -/

/-- What lets XORB complete (R99, R101, R110). -/
abbrev State.xorbReady (s : State) : Prop :=
  s.blkv = 0xFFFF ∧ (s.bsz.val = 0 ∨ inSpace s.cfg (blockStart s) s.bsz.val = true) ∧
    spanAdmitted s.cfg (blockStart s) s.bsz.val = true

/-- XORB XORs the block's span with the bytes of BLK (R101). -/
theorem exec_xorb_ok {s : State} (hs : s.ready) (h : s.xorbReady) :
    ∃ t, exec .xorb s = .next t ∧ t = completed { s with mem := t.mem, accesses := t.accesses } ∧
      XoredSpan (blockStart s) s.bsz.val (bytesOf s.blk) s.mem t.mem := by
  obtain ⟨hv, hin, hadm⟩ := h
  obtain ⟨u, hu, hdata, -, hmem⟩ := xorbBody_ok (s := startCommand s) hv hin hadm
  exact ⟨_, exec_dataOnly (i := .xorb) hs hu hdata, rfl, xoredSpan_of_read (src := bytesOf s.blk) hmem⟩

/-- Byte `k` of the block, as rule R42 writes it. -/
theorem blkByte_eq_shift (b : Block) (k : Fin 64) :
    blkByte b k = (b[k.val / 4]'(by omega) >>> (8 * (k.val % 4))).setWidth 8 :=
  BitVec.setWidth_ushiftRight_eq_extractLsb.symm

/-- Settles O39: `exec_xorb_ok`, with the bytes of BLK as rule R42 writes them. -/
theorem xorbXorsBlockBytes : Obligations.XorbXorsBlockBytes := by
  unfold Obligations.XorbXorsBlockBytes
  intro s hs hv hspan
  have hready : s.xorbReady := by
    obtain h0 | ⟨hin, hadm⟩ := hspan
    · exact ⟨hv, .inl h0, spanAdmitted_of_eq_zero _ _ h0⟩
    · exact ⟨hv, .inr (decide_eq_true hin), hadm⟩
  obtain ⟨t, ht, hregs, hmem⟩ := exec_xorb_ok hs hready
  refine ⟨t, ht, hregs, fun k hk => ?_, hmem.outside⟩
  rw [← blkByte_eq_shift, ← bytesOf_fin]
  exact hmem.inside k hk

/-! XORM. -/

theorem spansOverlap_iff {d a n : Nat} : spansOverlap d a n = true ↔ 0 < n ∧ d < a + n ∧ a < d + n := by
  simp only [spansOverlap, Bool.and_eq_true, decide_eq_true_eq, and_assoc]

/-- What lets XORM complete (R99, R100, R102). -/
abbrev State.xormReady (s : State) : Prop :=
  (s.dlen.toNat = 0 ∨ inSpace s.cfg s.daddr.toNat s.dlen.toNat = true ∧ inSpace s.cfg s.saddr.toNat s.dlen.toNat = true) ∧
    spansOverlap s.daddr.toNat s.saddr.toNat s.dlen.toNat = false ∧
    sourceAdmitted s.cfg s.saddr.toNat s.dlen.toNat = true ∧ spanAdmitted s.cfg s.daddr.toNat s.dlen.toNat = true

/-- The byte XORM applies at offset `k`: the source's, as it was (R102). -/
def sourceByte (s : State) (k : Nat) : Byte := Memory.read s.mem (s.saddr.toNat + k)

/-- XORM XORs the destination span with the source span (R102). -/
theorem exec_xorm_ok {s : State} (hs : s.ready) (h : s.xormReady) :
    ∃ t, exec .xorm s = .next t ∧ t = completed { s with mem := t.mem, accesses := t.accesses } ∧
      XoredSpan s.daddr.toNat s.dlen.toNat (sourceByte s) s.mem t.mem := by
  obtain ⟨hin, hdisjoint, hsrc, hdst⟩ := h
  obtain ⟨u, hu, hdata, -, hmem⟩ := xormBody_ok (s := startCommand s) hin hdisjoint hsrc hdst
  exact ⟨_, exec_dataOnly (i := .xorm) hs hu hdata, rfl, xoredSpan_of_read (src := sourceByte s) hmem⟩

/-- Settles O41: `exec_xorm_ok`; spans of size 0 are in the space, disjoint and admitted (R100). -/
theorem xormXorsSpans : Obligations.XormXorsSpans := by
  unfold Obligations.XormXorsSpans
  intro s hs d a n hspans
  have hready : s.xormReady := by
    obtain h0 | ⟨hdst, hsrc, hdisjoint, hsrcAdm, hdstAdm⟩ := hspans
    · exact ⟨.inl h0, Bool.eq_false_iff.mpr fun h => (spansOverlap_iff.mp h).1.ne' h0, sourceAdmitted_of_eq_zero _ _ h0,
        spanAdmitted_of_eq_zero _ _ h0⟩
    · exact ⟨.inr ⟨decide_eq_true hdst, decide_eq_true hsrc⟩,
        Bool.eq_false_iff.mpr fun h => hdisjoint (spansOverlap_iff.mp h).2, hsrcAdm, hdstAdm⟩
  obtain ⟨t, ht, hregs, hmem⟩ := exec_xorm_ok hs hready
  exact ⟨t, ht, hregs, hmem.inside, hmem.outside⟩

/-! Faults before any access. -/

theorem xorbBody_range {s : State} (hv : s.blkv = 0xFFFF) (h0 : s.bsz.val ≠ 0)
    (h : spaceSize s.cfg < blockStart s + s.bsz.val) : xorbBody s = raise s .range (blockStart s) := by
  rw [xorbBody, blkReady_iff.mpr hv, Bool.not_true, if_neg Bool.false_ne_true, if_neg h0, if_pos h]

theorem xormBody_range {s : State} (h0 : s.dlen.toNat ≠ 0)
    (h : spaceSize s.cfg < s.daddr.toNat + s.dlen.toNat ∨ spaceSize s.cfg < s.saddr.toNat + s.dlen.toNat) :
    xormBody s = raise s .range s.daddr.toNat := by
  rw [xormBody, if_neg h0, if_pos h]

/-- Settles O51: the range check comes first, and its address is narrowed on fault entry (R32). -/
theorem rangeFaultPrecedesAccesses : Obligations.RangeFaultPrecedesAccesses := by
  unfold Obligations.RangeFaultPrecedesAccesses
  intro s hs
  refine ⟨fun hv h0 h => ?_, fun h0 h => ?_⟩
  · exact ⟨_, narrow_toNat s.cfg _, exec_faulted (i := .xorb) hs (xorbBody_range (s := startCommand s) hv h0 h)⟩
  · exact ⟨_, narrow_toNat s.cfg _, exec_faulted (i := .xorm) hs (xormBody_range (s := startCommand s) h0 h)⟩

theorem xormBody_overlap {s : State} (hdst : s.daddr.toNat + s.dlen.toNat ≤ spaceSize s.cfg)
    (hsrc : s.saddr.toNat + s.dlen.toNat ≤ spaceSize s.cfg)
    (h : spansOverlap s.daddr.toNat s.saddr.toNat s.dlen.toNat = true) : xormBody s = raise s .overlap s.daddr.toNat := by
  obtain ⟨hpos, -, -⟩ := spansOverlap_iff.mp h
  rw [xormBody, if_neg hpos.ne', if_neg (not_or.mpr ⟨hdst.not_gt, hsrc.not_gt⟩), if_pos h]

/-- A chunk of XORM that faults raises BUS (R102). -/
theorem xormChunk_raised {s u : State} {o w : Nat} (h : xormChunk s o w = .raised u) : u.cause = some .bus := by
  unfold xormChunk at h
  cases hread : admitted s.cfg (s.saddr.toNat + o) w .read with
  | false =>
    rw [memRead_refused hread] at h
    cases h
    rfl
  | true =>
    rw [memRead_ok hread] at h
    obtain ⟨-, -, hc⟩ | ⟨-, hc⟩ | ⟨-, -, hc⟩ := chunkXor_cases _ _ _ _ <;> cases hc.symm.trans h
    · rfl
    · rfl

/-- An XORM whose spans are in the space and do not overlap can only fault by BUS. -/
theorem xormBody_raised {s u : State} (hdst : s.daddr.toNat + s.dlen.toNat ≤ spaceSize s.cfg)
    (hsrc : s.saddr.toNat + s.dlen.toNat ≤ spaceSize s.cfg)
    (hdisjoint : ¬spansOverlap s.daddr.toNat s.saddr.toNat s.dlen.toNat = true) (h : xormBody s = .raised u) :
    u.cause = some .bus := by
  rw [xormBody, if_neg (not_or.mpr ⟨hdst.not_gt, hsrc.not_gt⟩), if_neg hdisjoint] at h
  split at h
  · cases h
  · obtain ⟨_, _, _, _, _, -, -, hlast⟩ := runChunks_raised h
    exact xormChunk_raised hlast

/-- Settles O52: on overlapping spans by `xormBody_overlap`; on others the body keeps the cause or raises BUS. -/
theorem overlapFaultIsExact : Obligations.OverlapFaultIsExact := by
  unfold Obligations.OverlapFaultIsExact
  intro s hs hnone hdst hsrc
  refine ⟨_, exec_ready hs, fun hoverlap => ?_, fun hdisjoint => ?_⟩
  · refine ⟨_, narrow_toNat s.cfg _, ?_⟩
    rw [bodyOf, xormBody_overlap (s := startCommand s) hdst hsrc (spansOverlap_iff.mpr hoverlap)]
    rfl
  · rw [← spansOverlap_iff] at hdisjoint
    have hstatus : (xormBody (startCommand s)).Status (startCommand s) := xormBody_status _
    rw [bodyOf]
    cases hb : xormBody (startCommand s) with
    | ok t =>
      rw [hb] at hstatus
      exact .inl (hstatus.cause.trans hnone)
    | raised t => exact .inr (xormBody_raised (s := startCommand s) hdst hsrc hdisjoint hb)

end Sys2Proof.Machine
end

