-- ==== Sys2Proof/Proofs/DestinationSpan.lean ====
section
/-! PROOFS. The destination span of a command (R95, R98): it bounds what the command changes, however it ends, and a completed
command's bytes do not depend on the widths of its accesses. -/

namespace Sys2Proof.Machine

/-! Bytes outside the span. -/

theorem SameOutside.refl (lo hi : Nat) (m : Memory) : SameOutside lo hi m m := fun _ _ => rfl

theorem SameOutside.mono {lo hi lo' hi' : Nat} {m m' : Memory} (h : SameOutside lo hi m m') (hlo : lo' ≤ lo)
    (hhi : hi ≤ hi') : SameOutside lo' hi' m m' := fun y hy => h y (by omega)

/-- A command changes no byte that its body leaves alone. -/
theorem exec_sameOutside {i : Instr} {s t : State} {lo hi : Nat}
    (hbody : (bodyOf i (startCommand s)).All fun u => SameOutside lo hi s.mem u.mem) (h : exec i s = .next t) :
    SameOutside lo hi s.mem t.mem := by
  rw [exec_eq] at h
  cases h
  exact command_all (P := fun u => SameOutside lo hi s.mem u.mem) (.refl lo hi s.mem) hbody fun _ => id

theorem blockBody_notSeeded {s : State} (hr : s.rem ≠ 0) (hs : s.seeded = false) :
    blockBody s = raise (withSequencer s s.off s.rem (blockSize s.rem.toNat)) .notReady 0 := by
  rw [blockBody_of_rem_ne_zero hr, blockSteps, bsizeBody, andThen_ok, copyBody_notReady (by exact hs)]
  rfl

/-- However an iteration ends, it changes only bytes of the current block (R84, R101). -/
theorem blockBody_sameOutside (s : State) :
    (blockBody s).All fun t => SameOutside (blockStart s) (blockStart s + min 64 s.rem.toNat) s.mem t.mem := by
  by_cases hr : s.rem = 0
  · rw [blockBody_of_rem_eq_zero hr]
    exact SameOutside.refl _ _ _
  · cases hs : s.seeded with
    | false =>
      rw [blockBody_notSeeded hr hs]
      exact SameOutside.refl _ _ _
    | true =>
      rw [blockBody_seeded hr hs]
      refine Flow.All.andThen ((xorbBody_dataStep (beforeXorb s)).mono fun t ht => ?_) fun _ => id
      have hout := ht.outside
      rwa [beforeXorb_start, beforeXorb_bsz, blockSize_val, beforeXorb_mem] at hout

/-- However APPLY's loop ends, it has XORed some first part of the buffer with the keystream, and no other byte (R85, R87). -/
theorem blockLoop_xored {s : State} (hn : s.dlen.toNat < spaceSize s.cfg) :
    (blockLoop (blockCount s.dlen.toNat) (afterSeed s)).All fun t =>
      ∃ n, n ≤ s.dlen.toNat ∧ XoredSpan s.daddr.toNat n (applyByte s) s.mem t.mem := by
  by_cases hall : ∀ b, b < blockCount s.dlen.toNat → BlockFits s b
  · obtain ⟨t, ht, hafter⟩ := blockLoop_ok hn le_rfl hall
    rw [ht]
    exact ⟨_, Nat.min_le_right .., hafter.mem⟩
  · have hbad : ∃ b, b < blockCount s.dlen.toNat ∧ ¬BlockFits s b := by simpa using hall
    obtain ⟨b, ⟨hlt, hfirst⟩, hmin⟩ : ∃ b, (b < blockCount s.dlen.toNat ∧ ¬BlockFits s b) ∧
        ∀ c, c < b → ¬(c < blockCount s.dlen.toNat ∧ ¬BlockFits s c) :=
      ⟨Nat.find hbad, Nat.find_spec hbad, fun _ => Nat.find_min hbad⟩
    have hbefore (c : Nat) (hc : c < b) : BlockFits s c := not_not.mp fun h => hmin c hc ⟨hc.trans hlt, h⟩
    have hpos : 64 * b < s.dlen.toNat := by rw [blockCount] at hlt; omega
    obtain ⟨t, u, hafter, ⟨-, -, n, hle, hmem⟩, hraised⟩ := blockLoop_raised hn hpos hbefore hfirst
    rw [hraised _ hlt]
    refine ⟨_, ?_, hafter.mem_append hpos hle hmem⟩
    calc
      bytesBefore s.dlen.toNat b + n ≤ bytesBefore s.dlen.toNat b + sizeOfBlock s.dlen.toNat b :=
        Nat.add_le_add_left (hafter.nextSize_eq hpos ▸ hle) _
      _ = bytesBefore s.dlen.toNat (b + 1) := (bytesBefore_succ ..).symm
      _ ≤ s.dlen.toNat := Nat.min_le_right ..

theorem applyBody_sameOutside {s : State} (hn : s.dlen.toNat < spaceSize s.cfg) :
    (applyBody s).All fun t => SameOutside s.daddr.toNat (s.daddr.toNat + s.dlen.toNat) s.mem t.mem := by
  by_cases hk : s.kv = 0xFF ∧ s.nv = 0xF
  · rw [applyBody_keyed hk]
    refine (blockLoop_xored hn).mono fun t ⟨n, hle, hmem⟩ => ?_
    exact SameOutside.mono hmem.outside le_rfl (by omega)
  · rw [applyBody, seedBody_notReady hk]
    exact SameOutside.refl _ _ _

/-- Settles O28: the span of each command's body, from the state in which the command starts. -/
theorem storesStayInDestination : Obligations.StoresStayInDestination := by
  unfold Obligations.StoresStayInDestination
  intro s t
  refine ⟨fun h => ?_, fun h => ?_, fun h => ?_, fun hn h => ?_⟩
  · exact exec_sameOutside (i := .xorb) ((xorbBody_dataStep (startCommand s)).mono fun _ hu => hu.outside) h
  · exact exec_sameOutside (i := .xorm) ((xormBody_dataStep (startCommand s)).mono fun _ hu => hu.outside) h
  · exact exec_sameOutside (i := .block) (blockBody_sameOutside (startCommand s)) h
  · exact exec_sameOutside (i := .apply) (applyBody_sameOutside (s := startCommand s) hn) h

/-! Completed commands. -/

theorem xorb_xored {s t : State} (hs : s.ready) (h : exec .xorb s = .next t) (ht : t.final) :
    XoredSpan (blockStart s) s.bsz.val (bytesOf s.blk) s.mem t.mem := by
  obtain ⟨u, hu, -⟩ := bodyOf_ok_of_exec hs ht h
  obtain ⟨v, hv, -, hmem⟩ := exec_xorb_ok hs (xorbBody_inv (s := startCommand s) hu)
  cases h.symm.trans hv
  exact hmem

theorem xorm_xored {s t : State} (hs : s.ready) (h : exec .xorm s = .next t) (ht : t.final) :
    XoredSpan s.daddr.toNat s.dlen.toNat (sourceByte s) s.mem t.mem := by
  obtain ⟨u, hu, -⟩ := bodyOf_ok_of_exec hs ht h
  obtain ⟨v, hv, -, hmem⟩ := exec_xorm_ok hs (xormBody_inv (s := startCommand s) hu)
  cases h.symm.trans hv
  exact hmem

/-- The span, the bytes applied and the memory before determine the memory after. -/
theorem XoredSpan.unique {lo n : Nat} {src : Nat → Byte} {m m' m'' : Memory} (h : XoredSpan lo n src m m')
    (h' : XoredSpan lo n src m m'') (y : Nat) : Memory.read m' y = Memory.read m'' y := by
  by_cases hy : lo ≤ y ∧ y < lo + n
  · obtain ⟨k, rfl⟩ := Nat.exists_eq_add_of_le hy.1
    rw [h.inside k (by omega), h'.inside k (by omega)]
  · rw [h.outside y hy, h'.outside y hy]

/-- The same engine in a build with another VW and another admission (R98). -/
def inBuild (s : State) (vw : VecWidth) (ws : List Window) : State :=
  { s with cfg := { s.cfg with vw := vw, windows := ws } }

/-- Settles O50: neither the span nor the bytes applied depend on VW or on the admission. -/
theorem widthDoesNotChangeBytes : Obligations.WidthDoesNotChangeBytes := by
  unfold Obligations.WidthDoesNotChangeBytes
  intro s vw ws i t u hi hs hn h h' ht hu
  obtain rfl | rfl | rfl := hi
  · exact (xorb_xored hs h ht).unique (xorb_xored (s := inBuild s vw ws) hs h' hu)
  · exact (xorm_xored hs h ht).unique (xorm_xored (s := inBuild s vw ws) hs h' hu)
  · exact (apply_xored hs hn h ht).unique (apply_xored (s := inBuild s vw ws) hs hn h' hu)

end Sys2Proof.Machine
end

