-- ==== Sys2Proof/Proofs/RegisterReads.lean ====
section
/-! PROOFS. A read of a register as a number (R106, with the maps R31, R33 and R55), and the command that computes nothing (R104). -/

namespace Sys2Proof.Machine

/-! The fields of a register. -/

/-- A register's fields lie side by side: the lower field's number is added to the upper field's, shifted past it. -/
theorem toNat_append_eq_add {m n : Nat} (x : BitVec m) (y : BitVec n) :
    (x ++ y).toNat = x.toNat * 2 ^ n + y.toNat := by
  rw [BitVec.toNat_append, ← Nat.shiftLeft_add_eq_or_of_lt y.isLt, Nat.shiftLeft_eq]

theorem statusWord_toNat (s : State) : (statusWord s).toNat =
    s.busy.toNat + 2 * s.done.toNat + 4 * s.fault.toNat + 16 * (causeField s.cause).toNat := by
  simp only [statusWord, toNat_append_eq_add, BitVec.toNat_ofBool, BitVec.ofNat_eq_ofNat, BitVec.toNat_ofNat,
    Nat.zero_mod]
  omega

theorem validWord_toNat (s : State) : (validWord s).toNat =
    s.kv.toNat + 2 ^ 8 * s.nv.toNat + 2 ^ 12 * s.seeded.toNat + 2 ^ 16 * s.blkv.toNat := by
  simp only [validWord, toNat_append_eq_add, BitVec.toNat_ofBool, BitVec.ofNat_eq_ofNat, BitVec.toNat_ofNat,
    Nat.zero_mod]
  omega

/-- The word read of a register is the number the register map gives (R55, R106). -/
theorem readReg_toNat (r : Reg) (s : State) : (readReg r s).toNat = mapValue s r := by
  cases r with
  | status => exact statusWord_toNat s
  | valid => exact validWord_toNat s
  | bsz => exact (BitVec.toNat_ofNat ..).trans (Nat.mod_eq_of_lt (by omega))
  | faddrLo | daddrLo | dlenLo | saddrLo | offLo | remLo => exact loHalf_toNat _
  | faddrHi | daddrHi | dlenHi | saddrHi | offHi | remHi => exact hiHalf_toNat _
  | cmd | key _ | nonce _ | base _ | blk _ | reserved _ => rfl

/-! A read. -/

/-- What a read returns does not depend on the script. -/
theorem readReg_host (r : Reg) (s : State) (rest : List HostStep) :
    readReg r { s with host := rest } = readReg r s := by cases r <;> rfl

/-- While no command runs every register can be read, the unstable ones too (R106, R128). -/
theorem readStep_idle {s : State} (r : Reg) (hb : s.busy = false) :
    readStep r s = .next { s with reads := s.reads ++ [readReg r s] } :=
  if_neg (by rw [hb, Bool.false_and]; exact Bool.false_ne_true)

/-- A step whose host step is a read of a register is that read (R106). -/
theorem step_read {s : State} {r : Reg} {rest : List HostStep} (h : s.host = .read r.offset 4 :: rest) :
    step s = readStep r { s with host := rest } := by
  simp only [step, hostTurn, h, hostStep, busReg_offset]

/-- Settles O13: the step logs the word of `readReg`, which is the map's number by `readReg_toNat`. -/
theorem registerReadGivesMapValue : Obligations.RegisterReadGivesMapValue := by
  unfold Obligations.RegisterReadGivesMapValue
  intro s r rest hb h
  refine ⟨readReg r s, readReg_toNat r s, ?_⟩
  rw [step_read h, ← readReg_host r s rest]
  exact readStep_idle r hb

/-! NOP. -/

/-- Settles O29: the body of NOP leaves the state as it is, and a faulted engine is gated. -/
theorem nopCompletes : Obligations.NopCompletes := by
  unfold Obligations.NopCompletes
  refine ⟨decode_encode .nop, fun s => ⟨fun hs => ?_, fun hf => ?_⟩⟩
  · exact exec_completed (i := .nop) hs rfl rfl
  · exact exec_gated .nop (Bool.or_eq_true_iff.mpr (.inl hf))

end Sys2Proof.Machine
end

