-- ==== Sys2Proof/Proofs/IgnoredSteps.lean ====
section
/-! PROOFS. When the engine does nothing: with no host step pending (R123, R125), and while it is faulted or busy (R105, R115). -/

namespace Sys2Proof.Machine

theorem step_idle {s : State} (h : s.host = []) : step s = .next s := by simp only [step, hostTurn, h]

/-- Settles O15: the step of an empty script. -/
theorem idleEngineKeepsState : Obligations.IdleEngineKeepsState := by
  unfold Obligations.IdleEngineKeepsState
  intro s h
  exact step_idle h

/-- Settles O8: a faulted or busy engine is gated, and the gate comes before the choice of the register. -/
theorem gatedEngineIgnoresWrites : Obligations.GatedEngineIgnoresWrites := by
  unfold Obligations.GatedEngineIgnoresWrites
  intro s r v rest hg h
  exact (step_write h).trans (writeReg_gated (s := { s with host := rest }) (Bool.or_eq_true_iff.mpr hg))

/-- A faulted engine is gated (R115). -/
theorem gated_of_fault {s : State} (h : s.fault = true) : gated s = true := Bool.or_eq_true_iff.mpr (.inl h)

/-- Settles O22: of the steps other than reset, those that change an engine register need an engine that is not gated. -/
theorem onlyResetLeavesFault : Obligations.OnlyResetLeavesFault := by
  unfold Obligations.OnlyResetLeavesFault
  intro s t hf hreset h
  have hgated : gated s ≠ false := by
    rw [gated_of_fault hf]
    decide
  obtain ⟨hh, rfl⟩ | ⟨rest, hh, -⟩ | ⟨r, rest, hh, rfl⟩ | ⟨r, v, rest, hh, -, rfl⟩ | ⟨r, v, rest, -, hg, -⟩ |
    ⟨i, rest, -, hg, -⟩ | ⟨w, rest, -, hg, -⟩ := step_cases h
  · rw [hh, List.tail_nil, ← hh]
  · exact absurd (congrArg List.head? hh) hreset
  · rw [hh, List.tail_cons]
  · rw [hh, List.tail_cons]
  · exact absurd hg hgated
  · exact absurd hg hgated
  · exact absurd hg hgated

end Sys2Proof.Machine
end

