-- ==== Sys2Proof/Proofs/RefusedChunks.lean ====
section
/-! PROOFS. XORB and XORM that fault on what they find (R110, R111): without a fully valid BLK, and on a chunk that the memory
refuses after it has admitted the chunks before. -/

namespace Sys2Proof.Machine

theorem xorbBody_notReady {s : State} (h : s.blkv ≠ 0xFFFF) : xorbBody s = raise s .notReady 0 :=
  if_pos (by rw [Bool.eq_false_iff.mpr (mt blkReady_iff.mp h), Bool.not_false])

/-- Settles O40: the validity of BLK is examined before BSZ. -/
theorem xorbNeedsValidBlk : Obligations.XorbNeedsValidBlk := by
  unfold Obligations.XorbNeedsValidBlk
  intro s hs h
  exact exec_notReady hs (xorbBody_notReady (s := startCommand s) h)

/-! A chunk that is refused, after chunks that went through. -/

/-- A command whose body raises a fault after it has changed only the data space and the history leaves that change, faulted. -/
theorem exec_faulted_dataOnly {i : Instr} {s u : State} {c : Cause} {n : Nat} (hs : s.ready)
    (h : bodyOf i (startCommand s) = raise u c n) (hu : DataOnly (startCommand s) u) :
    exec i s = .next (faulted { s with mem := u.mem, accesses := u.accesses } c (narrow s.cfg n)) := by
  rw [exec_ready hs, h, hu]
  rfl

/-- A run stops at the first chunk that raises a fault: the later ones are not performed (R14). -/
theorem runChunks_stops {chunk : State → Nat → Nat → Flow} {pre post : List (Nat × Nat)} {o w n : Nat} {s t u : State}
    {c : Cause} (hpre : runChunks chunk pre s = .ok t) (hlast : chunk t o w = raise u c n) :
    runChunks chunk (pre ++ (o, w) :: post) s = raise u c n := by
  rw [runChunks_append, hpre, andThen_ok, runChunks, hlast, raise, andThen_raised]

/-- The chunks of a schedule before one of them cover the bytes below its offset (R97). -/
theorem sched_before {n o w : Nat} {vw : VecWidth} {pre post : List (Nat × Nat)}
    (h : sched n vw = pre ++ (o, w) :: post) : Contiguous 0 pre ∧ covered pre = o ∧ o ≤ n := by
  obtain ⟨hcontig, hcovered⟩ := sched_spec n vw
  rw [h] at hcontig hcovered
  obtain ⟨hpre, ho, -⟩ := contiguous_split hcontig
  rw [covered_append] at hcovered
  exact ⟨hpre, by omega, by omega⟩

/-- A chunk whose read or write is refused raises BUS at its address and leaves the data space as it was (R96, R111). -/
theorem chunkXor_refused {s : State} {a n : Nat} (b : List Byte)
    (h : ¬(admitted s.cfg a n .read = true ∧ admitted s.cfg a n .write = true)) :
    ∃ t, chunkXor s a n b = raise t .bus a ∧ DataOnly s t ∧ t.mem = s.mem := by
  obtain ⟨hr, hw, -⟩ | ⟨-, hc⟩ | ⟨-, -, hc⟩ := chunkXor_cases s a n b
  · exact absurd ⟨hr, hw⟩ h
  · exact ⟨s, hc, .refl s, rfl⟩
  · exact ⟨_, hc, dataOnly_logAccess .., rfl⟩

/-! XORB. -/

/-- Past its conditions XORB is the run of its schedule, which is empty when BSZ is 0 (R101). -/
theorem xorbBody_eq_runChunks {s : State} (hv : s.blkv = 0xFFFF) (hin : blockStart s + s.bsz.val ≤ spaceSize s.cfg) :
    xorbBody s = runChunks xorbChunk (sched s.bsz.val s.cfg.vw) s := by
  rw [xorbBody, blkReady_iff.mpr hv, Bool.not_true, if_neg Bool.false_ne_true, if_neg hin.not_gt]
  split
  next h0 => rw [h0, sched_zero, runChunks]
  next => rfl

/-- XORB on a span whose chunk at offset `o` is the first to be refused (R111). -/
theorem xorbBody_refused {s : State} {pre post : List (Nat × Nat)} {o w : Nat} (hv : s.blkv = 0xFFFF)
    (hin : blockStart s + s.bsz.val ≤ spaceSize s.cfg) (hsched : sched s.bsz.val s.cfg.vw = pre ++ (o, w) :: post)
    (hpre : ∀ ow ∈ pre, admitted s.cfg (blockStart s + ow.1) ow.2 .read = true ∧
      admitted s.cfg (blockStart s + ow.1) ow.2 .write = true)
    (hlast : ¬(admitted s.cfg (blockStart s + o) w .read = true ∧ admitted s.cfg (blockStart s + o) w .write = true)) :
    ∃ u, xorbBody s = raise u .bus (blockStart s + o) ∧ DataOnly s u ∧
      XoredSpan (blockStart s) o (bytesOf s.blk) s.mem u.mem := by
  obtain ⟨hcontig, rfl, -⟩ := sched_before hsched
  obtain ⟨t, ht, hdata, -, hread⟩ := xorb_run hcontig hpre
  rw [← hdata.cfg_eq, ← hdata.blockStart_eq] at hlast
  obtain ⟨u, hu, hdata', hmem⟩ := chunkXor_refused (blkBytes t.blk (covered pre) w) hlast
  rw [hdata.blockStart_eq] at hu
  refine ⟨u, ?_, hdata.trans hdata', hmem ▸ xoredSpan_of_read hread⟩
  rw [xorbBody_eq_runChunks hv hin, hsched]
  exact runChunks_stops ht (by rw [xorbChunk, hdata.blockStart_eq, hu])

/-- Settles O53: `xorbBody_refused`, with the address narrowed on fault entry (R32). -/
theorem xorbBusFaultKeepsEarlierChunks : Obligations.XorbBusFaultKeepsEarlierChunks := by
  unfold Obligations.XorbBusFaultKeepsEarlierChunks
  intro s pre post o w hs hv d hin hsched hpre hlast
  obtain ⟨u, hu, hdata, hmem⟩ := xorbBody_refused (s := startCommand s) hv hin hsched hpre hlast
  refine ⟨_, _, exec_faulted_dataOnly (i := .xorb) hs hu hdata, narrow_toNat s.cfg _, rfl, fun k hk => ?_, hmem.outside⟩
  rw [← bytesOf_fin]
  exact hmem.inside k hk

/-! XORM. -/

/-- Past its conditions XORM is the run of its schedule, which is empty when DLEN is 0 (R102). -/
theorem xormBody_eq_runChunks {s : State} (hdst : s.daddr.toNat + s.dlen.toNat ≤ spaceSize s.cfg)
    (hsrc : s.saddr.toNat + s.dlen.toNat ≤ spaceSize s.cfg)
    (hdisjoint : spansOverlap s.daddr.toNat s.saddr.toNat s.dlen.toNat = false) :
    xormBody s = runChunks xormChunk (sched s.dlen.toNat s.cfg.vw) s := by
  rw [xormBody, if_neg (not_or.mpr ⟨hdst.not_gt, hsrc.not_gt⟩), hdisjoint, if_neg Bool.false_ne_true]
  split
  next h0 => rw [h0, sched_zero, runChunks]
  next => rfl

/-- The address of the access that is refused in the chunk at offset `o`: the source's if its read is, else the destination's
(R102, R111). -/
def xormRefusal (s : State) (o w : Nat) : Nat :=
  if admitted s.cfg (s.saddr.toNat + o) w .read = true then s.daddr.toNat + o else s.saddr.toNat + o

theorem DataOnly.xormRefusal_eq {s t : State} (h : DataOnly s t) (o w : Nat) : xormRefusal t o w = xormRefusal s o w := by
  rw [xormRefusal, xormRefusal, h.cfg_eq, h.saddr_eq, h.daddr_eq]

/-- A chunk of XORM with a refused access raises BUS at that access and leaves the data space as it was (R102, R111). -/
theorem xormChunk_refused {s : State} {o w : Nat}
    (h : ¬(admitted s.cfg (s.saddr.toNat + o) w .read = true ∧ admitted s.cfg (s.daddr.toNat + o) w .read = true ∧
      admitted s.cfg (s.daddr.toNat + o) w .write = true)) :
    ∃ t, xormChunk s o w = raise t .bus (xormRefusal s o w) ∧ DataOnly s t ∧ t.mem = s.mem := by
  unfold xormChunk xormRefusal
  cases hsrc : admitted s.cfg (s.saddr.toNat + o) w .read with
  | false =>
    rw [memRead_refused hsrc, if_neg Bool.false_ne_true]
    exact ⟨s, rfl, .refl s, rfl⟩
  | true =>
    rw [memRead_ok hsrc, if_pos rfl]
    obtain ⟨t, ht, hdata, hmem⟩ := chunkXor_refused (s := logAccess s .read (s.saddr.toNat + o) w)
      (Memory.readBytes s.mem (s.saddr.toNat + o) w) fun hdst => h ⟨hsrc, hdst⟩
    exact ⟨t, ht, (dataOnly_logAccess ..).trans hdata, hmem⟩

/-- XORM on spans whose chunk at offset `o` is the first to have an access refused (R111). -/
theorem xormBody_refused {s : State} {pre post : List (Nat × Nat)} {o w : Nat}
    (hdst : s.daddr.toNat + s.dlen.toNat ≤ spaceSize s.cfg) (hsrc : s.saddr.toNat + s.dlen.toNat ≤ spaceSize s.cfg)
    (hdisjoint : spansOverlap s.daddr.toNat s.saddr.toNat s.dlen.toNat = false)
    (hsched : sched s.dlen.toNat s.cfg.vw = pre ++ (o, w) :: post)
    (hpre : ∀ ow ∈ pre, admitted s.cfg (s.saddr.toNat + ow.1) ow.2 .read = true ∧
      admitted s.cfg (s.daddr.toNat + ow.1) ow.2 .read = true ∧ admitted s.cfg (s.daddr.toNat + ow.1) ow.2 .write = true)
    (hlast : ¬(admitted s.cfg (s.saddr.toNat + o) w .read = true ∧ admitted s.cfg (s.daddr.toNat + o) w .read = true ∧
      admitted s.cfg (s.daddr.toNat + o) w .write = true)) :
    ∃ u, xormBody s = raise u .bus (xormRefusal s o w) ∧ DataOnly s u ∧
      XoredSpan s.daddr.toNat o (sourceByte s) s.mem u.mem := by
  obtain ⟨hcontig, rfl, hle⟩ := sched_before hsched
  obtain ⟨t, ht, hdata, -, hread⟩ := xorm_run hcontig (by omega) hdisjoint hpre
  rw [← hdata.cfg_eq, ← hdata.saddr_eq, ← hdata.daddr_eq] at hlast
  obtain ⟨u, hu, hdata', hmem⟩ := xormChunk_refused hlast
  rw [hdata.xormRefusal_eq] at hu
  refine ⟨u, ?_, hdata.trans hdata', hmem ▸ xoredSpan_of_read (src := sourceByte s) hread⟩
  rw [xormBody_eq_runChunks hdst hsrc hdisjoint, hsched]
  exact runChunks_stops ht hu

/-- Settles O54: `xormBody_refused`, with the address narrowed on fault entry (R32). -/
theorem xormBusFaultKeepsEarlierChunks : Obligations.XormBusFaultKeepsEarlierChunks := by
  unfold Obligations.XormBusFaultKeepsEarlierChunks
  intro s pre post o w hs d b n hdst hsrc hdisjoint hsched hpre hlast
  have hoverlap : spansOverlap d b n = false := Bool.eq_false_iff.mpr fun h => hdisjoint (spansOverlap_iff.mp h).2
  obtain ⟨u, hu, hdata, hmem⟩ := xormBody_refused (s := startCommand s) hdst hsrc hoverlap hsched hpre hlast
  exact ⟨_, _, exec_faulted_dataOnly (i := .xorm) hs hu hdata, narrow_toNat s.cfg _, rfl, hmem.inside, hmem.outside⟩

end Sys2Proof.Machine
end
